-- ==== Sys2Proof/Word.lean ====
section
/-! DEFINITION. The word types (00_scope.md R6, R7; 20_memory.md R51, R54). -/

namespace Sys2Proof

/-- A program-image word, `u32` (20_memory.md R51). -/
abbrev Word := BitVec 32

/-- A byte of the program-image buffer, which exists only at the load (20_memory.md R52). -/
abbrev Byte := BitVec 8

/-- The value of a machine-image cell: a mathematical integer, signed and unbounded (10_state.md R22). -/
abbrev Cell := Int

end Sys2Proof
end

