-- ==== Sys2Proof/Machine/Integer.lean ====
section
/-! DEFINITION. The integer operations of the ALU (00_scope.md R7, R8; 41_arithmetic.md; 42_unary.md), on unbounded integers: there
is no width, so nothing wraps (41_arithmetic.md R150). -/

namespace Sys2Proof.Machine

/-- `tdiv(a, b)`, truncating toward zero (00_scope.md R7). -/
def tdiv (a b : Int) : Int := Int.tdiv a b

/-- `tmod(a, b) = a - b * tdiv(a, b)`, zero or of the sign of the dividend (00_scope.md R7, 43_modulo.md R180). -/
def tmod (a b : Int) : Int := a - b * tdiv a b

/-- `floor_div(a, b)`, rounding toward negative infinity (00_scope.md R7). -/
def floorDiv (a b : Int) : Int := Int.fdiv a b

/-- `bit(v, k) = floor_div(v, 2^k) mod 2` as a Boolean (00_scope.md R8). -/
def bit (v : Int) (k : Nat) : Bool := floorDiv v (2 ^ k) % 2 == 1

/-- The bits of the natural number `a` that are not bits of `b`. -/
def natAndNot (a b : Nat) : Nat := a ^^^ (a &&& b)

/-- AND on the two's-complement form of the integers (41_arithmetic.md R145). -/
def bitAnd : Int → Int → Int
  | .ofNat a, .ofNat b => .ofNat (a &&& b)
  | .ofNat a, .negSucc b => .ofNat (natAndNot a b)
  | .negSucc a, .ofNat b => .ofNat (natAndNot b a)
  | .negSucc a, .negSucc b => .negSucc (a ||| b)

/-- OR on the two's-complement form of the integers (41_arithmetic.md R146). -/
def bitOr : Int → Int → Int
  | .ofNat a, .ofNat b => .ofNat (a ||| b)
  | .ofNat a, .negSucc b => .negSucc (natAndNot b a)
  | .negSucc a, .ofNat b => .negSucc (natAndNot a b)
  | .negSucc a, .negSucc b => .negSucc (a &&& b)

/-- XOR on the two's-complement form of the integers (41_arithmetic.md R147). -/
def bitXor : Int → Int → Int
  | .ofNat a, .ofNat b => .ofNat (a ^^^ b)
  | .ofNat a, .negSucc b => .negSucc (a ^^^ b)
  | .negSucc a, .ofNat b => .negSucc (a ^^^ b)
  | .negSucc a, .negSucc b => .ofNat (a ^^^ b)

/-- `not` on the two's-complement form of the integer, `-d - 1` (42_unary.md R173). -/
def bitNot (a : Int) : Int := -a - 1

/-- `d * 2^s` for a count `s >= 0` (41_arithmetic.md R148). -/
def shiftLeft (d s : Int) : Int := d * 2 ^ s.toNat

/-- `floor_div(d, 2^s)` for a count `s >= 0` (41_arithmetic.md R149). -/
def shiftRight (d s : Int) : Int := floorDiv d (2 ^ s.toNat)

end Sys2Proof.Machine
end

