-- ==== Sys2Proof/Config.lean ====
section
/-! DEFINITION. What one core instance is configured with (00_scope.md R6, 10_state.md R21, R22, 30_encoding.md R77), and the one
free value of the spec (30_encoding.md R119). -/

namespace Sys2Proof

/-- The 29 mnemonics of the instruction set, in the order the spec lists them (00_scope.md R2, 30_encoding.md R76). -/
inductive Mnemonic where
  | nop | mov | cmp | jmp | je | jne | jl | jle | jg | jge | mod | rem | inc | dec | not | add | sub | mul
  | div | and | or | xor | shl | shr | push | pop | call | ret | prn
deriving DecidableEq, Repr

/-- Every mnemonic once, in the order of 30_encoding.md R76. -/
def Mnemonic.all : List Mnemonic :=
  [.nop, .mov, .cmp, .jmp, .je, .jne, .jl, .jle, .jg, .jge, .mod, .rem, .inc, .dec, .not, .add, .sub, .mul,
   .div, .and, .or, .xor, .shl, .shr, .push, .pop, .call, .ret, .prn]

/-- The parameter `OPC` of 30_encoding.md R77 as plain data: the opcode number of each mnemonic, 8 bits wide (R70). -/
structure OpcMap where
  nop : BitVec 8
  mov : BitVec 8
  cmp : BitVec 8
  jmp : BitVec 8
  je : BitVec 8
  jne : BitVec 8
  jl : BitVec 8
  jle : BitVec 8
  jg : BitVec 8
  jge : BitVec 8
  mod : BitVec 8
  rem : BitVec 8
  inc : BitVec 8
  dec : BitVec 8
  not : BitVec 8
  add : BitVec 8
  sub : BitVec 8
  mul : BitVec 8
  div : BitVec 8
  and : BitVec 8
  or : BitVec 8
  xor : BitVec 8
  shl : BitVec 8
  shr : BitVec 8
  push : BitVec 8
  pop : BitVec 8
  call : BitVec 8
  ret : BitVec 8
  prn : BitVec 8
deriving DecidableEq, Repr

/-- `OPC(m)`. -/
def OpcMap.of (o : OpcMap) : Mnemonic → BitVec 8
  | .nop => o.nop
  | .mov => o.mov
  | .cmp => o.cmp
  | .jmp => o.jmp
  | .je => o.je
  | .jne => o.jne
  | .jl => o.jl
  | .jle => o.jle
  | .jg => o.jg
  | .jge => o.jge
  | .mod => o.mod
  | .rem => o.rem
  | .inc => o.inc
  | .dec => o.dec
  | .not => o.not
  | .add => o.add
  | .sub => o.sub
  | .mul => o.mul
  | .div => o.div
  | .and => o.and
  | .or => o.or
  | .xor => o.xor
  | .shl => o.shl
  | .shr => o.shr
  | .push => o.push
  | .pop => o.pop
  | .call => o.call
  | .ret => o.ret
  | .prn => o.prn

/-- `OPC` is injective (30_encoding.md R77): no two mnemonics share a number. -/
abbrev OpcMap.Injective (o : OpcMap) : Prop := (Mnemonic.all.map o.of).Nodup

/-- `CELL_BOUND` of a finite realisation (10_state.md R22): the inclusive range of values a cell can hold.
DESIGN CHOICE: the spec calls it a range and gives it no form; safe (log 5). -/
structure CellBound where
  lo : Int
  hi : Int
deriving DecidableEq, Repr

/-- The parameters of one core instance, fixed for its lifetime (00_scope.md R6, 70_reset_and_hazards.md R281). -/
structure Config where
  /-- `MEMORY_SIZE`, the number of cells of the machine image. -/
  memorySize : Nat
  /-- `STACK_SIZE`, the number of cells of the stack region. -/
  stackSize : Nat
  /-- `CELL_BOUND`; `none` is the reference model, which has no bound (10_state.md R22). -/
  cellBound : Option CellBound
  /-- `OPC`, the opcode numbers (30_encoding.md R77). -/
  opc : OpcMap
deriving DecidableEq, Repr

/-- The default `MEMORY_SIZE` (00_scope.md R6). -/
def Config.defaultMemorySize : Nat := 262144

/-- The default `STACK_SIZE` (00_scope.md R6). -/
def Config.defaultStackSize : Nat := 4096

/-- The legal configurations: the sizes of 10_state.md R21, and an injective `OPC` (30_encoding.md R77). -/
abbrev Config.Legal (c : Config) : Prop := c.stackSize + 10 ≤ c.memorySize ∧ c.opc.Injective

/-- FREE VALUE (30_encoding.md R119, 92 D29, 93 I8): which of several undefined labels a link error names. "which one the error
names is not fixed (any undefined label may be named)". It has no body, so nothing can be proved about which one (log 29). -/
opaque Config.undefinedLabelChoice : List String → Nat

end Sys2Proof
end

