-- ==== Sys2Proof/Syntax.lean ====
section
/-! DEFINITION. The instructions as the core holds them once decoded (30_encoding.md R94): one constructor per row of
spec/opcode_table.json, each operand its addressed bit and its raw word. -/

namespace Sys2Proof

/-- One operand of a decoded instruction: whether its addressed bit is 1 (`dA`, `sA`) and its raw operand word (`dw`, `sw`)
(30_encoding.md R73, R91, R94). The other opcode-word bits are not read by the core (R72). -/
structure Operand where
  addressed : Bool
  word : Word
deriving DecidableEq, Repr

/-- The instruction set (30_encoding.md R76). `dest` is the destination operand, `src` the source operand (R74). -/
inductive Instr where
  /-- `nop`: do nothing (48_nop_prn.md R240). -/
  | nop
  /-- `mov`: dest := s (40_data_move.md R130). -/
  | mov (dest src : Operand)
  /-- `cmp`: compare, FLAGS (44_compare.md R190). -/
  | cmp (dest src : Operand)
  /-- `jmp`: ip := d (45_jumps.md R200). -/
  | jmp (dest : Operand)
  /-- `je`: jump if ZF (45_jumps.md R202). -/
  | je (dest : Operand)
  /-- `jne`: jump if not ZF (45_jumps.md R203). -/
  | jne (dest : Operand)
  /-- `jl`: jump if less (45_jumps.md R204). -/
  | jl (dest : Operand)
  /-- `jle`: jump if less or equal (45_jumps.md R205). -/
  | jle (dest : Operand)
  /-- `jg`: jump if greater (45_jumps.md R206). -/
  | jg (dest : Operand)
  /-- `jge`: jump if greater or equal (45_jumps.md R207). -/
  | jge (dest : Operand)
  /-- `mod`: REM := d mod s (43_modulo.md R180). -/
  | mod (dest src : Operand)
  /-- `rem`: dest := REM (43_modulo.md R182). -/
  | rem (dest : Operand)
  /-- `inc`: dest := d + 1 (42_unary.md R171). -/
  | inc (dest : Operand)
  /-- `dec`: dest := d - 1 (42_unary.md R172). -/
  | dec (dest : Operand)
  /-- `not`: dest := bitwise-not d (42_unary.md R173). -/
  | not (dest : Operand)
  /-- `add`: dest := d + s (41_arithmetic.md R141). -/
  | add (dest src : Operand)
  /-- `sub`: dest := d - s (41_arithmetic.md R142). -/
  | sub (dest src : Operand)
  /-- `mul`: dest := d * s (41_arithmetic.md R143). -/
  | mul (dest src : Operand)
  /-- `div`: dest := d / s (41_arithmetic.md R144). -/
  | div (dest src : Operand)
  /-- `and`: dest := d AND s (41_arithmetic.md R145). -/
  | and (dest src : Operand)
  /-- `or`: dest := d OR s (41_arithmetic.md R146). -/
  | or (dest src : Operand)
  /-- `xor`: dest := d XOR s (41_arithmetic.md R147). -/
  | xor (dest src : Operand)
  /-- `shl`: shift left (41_arithmetic.md R148). -/
  | shl (dest src : Operand)
  /-- `shr`: shift right, arithmetic (41_arithmetic.md R149). -/
  | shr (dest src : Operand)
  /-- `push`: push d (46_stack.md R220). -/
  | push (dest : Operand)
  /-- `pop`: pop into dest (46_stack.md R222). -/
  | pop (dest : Operand)
  /-- `call`: push ip + 2, ip := d (47_call_ret.md R230). -/
  | call (dest : Operand)
  /-- `ret`: pop into ip (47_call_ret.md R232). -/
  | ret
  /-- `prn`: output d (48_nop_prn.md R241). -/
  | prn (dest : Operand)
deriving DecidableEq, Repr

end Sys2Proof
end

