-- ==== Sys2Proof/WellFormed.lean ====
section
/-! DEFINITION. The operand contract of an instruction (30_encoding.md R83, R116): the destination of a write-back instruction is
addressed. The linker engine emits no other instruction; the core runs the others too (R95), so no meaning and no statement about
the core assumes this. The contract of a linker node is in Machine/Linker.lean, the legal configurations in Config.lean. -/

namespace Sys2Proof

/-- The instruction keeps the contract of 30_encoding.md R83. -/
def Instr.wellFormed : Instr → Bool
  | .nop => true
  | .mov dest _ => dest.addressed
  | .cmp _ _ => true
  | .jmp _ => true
  | .je _ => true
  | .jne _ => true
  | .jl _ => true
  | .jle _ => true
  | .jg _ => true
  | .jge _ => true
  | .mod _ _ => true
  | .rem dest => dest.addressed
  | .inc dest => dest.addressed
  | .dec dest => dest.addressed
  | .not dest => dest.addressed
  | .add dest _ => dest.addressed
  | .sub dest _ => dest.addressed
  | .mul dest _ => dest.addressed
  | .div dest _ => dest.addressed
  | .and dest _ => dest.addressed
  | .or dest _ => dest.addressed
  | .xor dest _ => dest.addressed
  | .shl dest _ => dest.addressed
  | .shr dest _ => dest.addressed
  | .push _ => true
  | .pop dest => dest.addressed
  | .call _ => true
  | .ret => true
  | .prn _ => true

end Sys2Proof
end

