-- ==== Sys2Proof/Decode.lean ====
section
/-! DEFINITION. The encoding (30_encoding.md sections 1 to 5): the default opcode map, the decoder, the encoder, the byte order of
the program image, and the host's reading of a word numbered as spec/opcode_table.json numbers it. -/

namespace Sys2Proof

/-- The default opcode map (30_encoding.md R76). DESIGN CHOICE of the spec (92 D1): the source gives no numbers; exact for images of
the spec's own linker, unsafe for images of the original software (log 1). -/
def defaultOpc : OpcMap :=
  { nop := 0x00, mov := 0x01, cmp := 0x02, jmp := 0x03, je := 0x04, jne := 0x05, jl := 0x06, jle := 0x07,
    jg := 0x08, jge := 0x09, mod := 0x0A, rem := 0x0B, inc := 0x0C, dec := 0x0D, not := 0x0E, add := 0x0F,
    sub := 0x10, mul := 0x11, div := 0x12, and := 0x13, or := 0x14, xor := 0x15, shl := 0x16, shr := 0x17,
    push := 0x18, pop := 0x19, call := 0x1A, ret := 0x1B, prn := 0x1C }

/-- The operand count of each mnemonic (30_encoding.md R75, R76). -/
def Mnemonic.arity : Mnemonic → Nat
  | .nop | .ret => 0
  | .jmp | .je | .jne | .jl | .jle | .jg | .jge | .rem | .inc | .dec | .not | .push | .pop | .call | .prn => 1
  | .mov | .cmp | .mod | .add | .sub | .mul | .div | .and | .or | .xor | .shl | .shr => 2

/-- The instructions that write their destination back (30_encoding.md R76, R83). -/
def Mnemonic.writesDest : Mnemonic → Bool
  | .mov | .rem | .inc | .dec | .not | .add | .sub | .mul | .div | .and | .or | .xor | .shl | .shr | .pop => true
  | .nop | .cmp | .jmp | .je | .jne | .jl | .jle | .jg | .jge | .mod | .push | .call | .ret | .prn => false

/-! ## The opcode word (30_encoding.md R70, R72) -/

/-- Bits 7..0, `OP`. -/
def opField (w : Word) : BitVec 8 := w.setWidth 8

/-- Bit 8, `SA`: the source operand is addressed. -/
def srcAddressed (w : Word) : Bool := w.getLsbD 8

/-- Bit 10, `DA`: the destination operand is addressed. -/
def destAddressed (w : Word) : Bool := w.getLsbD 10

/-- The bits of one operand: exactly one of addressed and direct when it is present, neither when it is absent
(30_encoding.md R71). -/
def operandBits (addressedBit directBit : Word) : Option Bool → Word
  | none => 0
  | some true => addressedBit
  | some false => directBit

/-- The opcode word the linker engine writes for the opcode number `op` (30_encoding.md R70, R71): `dest` and `src` say of each
operand whether it is present and addressed. -/
def opcodeWord (op : BitVec 8) (dest src : Option Bool) : Word :=
  op.setWidth 32 ||| operandBits 0x400 0x800 dest ||| operandBits 0x100 0x200 src

/-! ## The decoder (30_encoding.md R88, R90, R91) -/

/-- Why the decoder refuses; both are the fault `InvalidProgram` (30_encoding.md R88, R90). -/
inductive DecodeError where
  /-- There is no opcode word at all. -/
  | noWord
  /-- Bits 7..0 are no `OPC(m)` (30_encoding.md R78). -/
  | unknownOpcode (op : BitVec 8)
  /-- The words end inside the operands of `m` (30_encoding.md R90). -/
  | truncated (m : Mnemonic)
deriving DecidableEq, Repr

/-- The mnemonic whose opcode number is `op` (30_encoding.md R88). -/
def lookupMnemonic (o : OpcMap) (op : BitVec 8) : Option Mnemonic :=
  Mnemonic.all.find? (fun m => o.of m == op)

/-- The instruction of a mnemonic and its operands; a format without an operand ignores it (30_encoding.md R74). -/
def buildInstr (m : Mnemonic) (dest src : Operand) : Instr :=
  match m with
  | .nop => .nop
  | .mov => .mov dest src
  | .cmp => .cmp dest src
  | .jmp => .jmp dest
  | .je => .je dest
  | .jne => .jne dest
  | .jl => .jl dest
  | .jle => .jle dest
  | .jg => .jg dest
  | .jge => .jge dest
  | .mod => .mod dest src
  | .rem => .rem dest
  | .inc => .inc dest
  | .dec => .dec dest
  | .not => .not dest
  | .add => .add dest src
  | .sub => .sub dest src
  | .mul => .mul dest src
  | .div => .div dest src
  | .and => .and dest src
  | .or => .or dest src
  | .xor => .xor dest src
  | .shl => .shl dest src
  | .shr => .shr dest src
  | .push => .push dest
  | .pop => .pop dest
  | .call => .call dest
  | .ret => .ret
  | .prn => .prn dest

/-- Decode the instruction that starts a list of words (30_encoding.md R88 to R91): the opcode alone gives the length (R79), only
bits 7..0, 8 and 10 of the opcode word are read (R72). -/
def decode (o : OpcMap) : List Word → Except DecodeError Instr
  | [] => .error .noWord
  | w :: ws =>
    match lookupMnemonic o (opField w) with
    | none => .error (.unknownOpcode (opField w))
    | some m =>
      if m.arity ≤ ws.length then
        .ok (buildInstr m ⟨destAddressed w, ws.getD 0 0⟩ ⟨srcAddressed w, ws.getD 1 0⟩)
      else .error (.truncated m)

/-! ## The encoder (30_encoding.md R70, R71, R74) -/

/-- The mnemonic of an instruction. -/
def Instr.mnemonic : Instr → Mnemonic
  | .nop => .nop
  | .mov _ _ => .mov
  | .cmp _ _ => .cmp
  | .jmp _ => .jmp
  | .je _ => .je
  | .jne _ => .jne
  | .jl _ => .jl
  | .jle _ => .jle
  | .jg _ => .jg
  | .jge _ => .jge
  | .mod _ _ => .mod
  | .rem _ => .rem
  | .inc _ => .inc
  | .dec _ => .dec
  | .not _ => .not
  | .add _ _ => .add
  | .sub _ _ => .sub
  | .mul _ _ => .mul
  | .div _ _ => .div
  | .and _ _ => .and
  | .or _ _ => .or
  | .xor _ _ => .xor
  | .shl _ _ => .shl
  | .shr _ _ => .shr
  | .push _ => .push
  | .pop _ => .pop
  | .call _ => .call
  | .ret => .ret
  | .prn _ => .prn

/-- The destination operand, if the format has one (30_encoding.md R74). -/
def Instr.dest? : Instr → Option Operand
  | .nop => none
  | .mov d _ => some d
  | .cmp d _ => some d
  | .jmp d => some d
  | .je d => some d
  | .jne d => some d
  | .jl d => some d
  | .jle d => some d
  | .jg d => some d
  | .jge d => some d
  | .mod d _ => some d
  | .rem d => some d
  | .inc d => some d
  | .dec d => some d
  | .not d => some d
  | .add d _ => some d
  | .sub d _ => some d
  | .mul d _ => some d
  | .div d _ => some d
  | .and d _ => some d
  | .or d _ => some d
  | .xor d _ => some d
  | .shl d _ => some d
  | .shr d _ => some d
  | .push d => some d
  | .pop d => some d
  | .call d => some d
  | .ret => none
  | .prn d => some d

/-- The source operand, if the format has one (30_encoding.md R74). -/
def Instr.src? : Instr → Option Operand
  | .nop => none
  | .mov _ s => some s
  | .cmp _ s => some s
  | .jmp _ => none
  | .je _ => none
  | .jne _ => none
  | .jl _ => none
  | .jle _ => none
  | .jg _ => none
  | .jge _ => none
  | .mod _ s => some s
  | .rem _ => none
  | .inc _ => none
  | .dec _ => none
  | .not _ => none
  | .add _ s => some s
  | .sub _ s => some s
  | .mul _ s => some s
  | .div _ s => some s
  | .and _ s => some s
  | .or _ s => some s
  | .xor _ s => some s
  | .shl _ s => some s
  | .shr _ s => some s
  | .push _ => none
  | .pop _ => none
  | .call _ => none
  | .ret => none
  | .prn _ => none

/-- The length in words, `1 + arity` (30_encoding.md R79, R80). -/
def Instr.len (i : Instr) : Nat := 1 + i.mnemonic.arity

/-- The opcode word of an instruction (30_encoding.md R70, R71). -/
def Instr.opcode (o : OpcMap) (i : Instr) : Word :=
  opcodeWord (o.of i.mnemonic) (i.dest?.map (·.addressed)) (i.src?.map (·.addressed))

/-- The words of an instruction: opcode word, destination word, source word (30_encoding.md R74). -/
def encode (o : OpcMap) (i : Instr) : List Word :=
  i.opcode o :: (i.dest?.toList ++ i.src?.toList).map (·.word)

/-! ## Byte order of the program image (20_memory.md R52, R53) -/

/-- Four bytes as a little-endian word (20_memory.md R52). -/
def wordOfBytes (b0 b1 b2 b3 : Byte) : Word :=
  BitVec.ofNat 32 (b0.toNat + 256 * b1.toNat + 65536 * b2.toNat + 16777216 * b3.toNat)

/-- A byte buffer as words; `none` when its length is not a multiple of 4 (20_memory.md R53). -/
def wordsOfBytes : List Byte → Option (List Word)
  | [] => some []
  | b0 :: b1 :: b2 :: b3 :: rest => (wordsOfBytes rest).map (wordOfBytes b0 b1 b2 b3 :: ·)
  | _ => none

/-- A word as four little-endian bytes (20_memory.md R52, 30_encoding.md R121). -/
def bytesOfWord (w : Word) : List Byte :=
  [w.extractLsb' 0 8, w.extractLsb' 8 8, w.extractLsb' 16 8, w.extractLsb' 24 8]

/-- Words as a little-endian byte buffer (30_encoding.md R121). -/
def bytesOfWords (ws : List Word) : List Byte := ws.flatMap bytesOfWord

/-! ## The host's reading of the opcode table -/

/-- The words of an instruction whose bits are `w`, bit 0 the least significant bit of the first word, later words counting on
from it; bits at `nbits` and above are 0. Three words, the longest instruction (30_encoding.md R74). -/
def tableWords (nbits w : Nat) : List Word :=
  let v := w % 2 ^ nbits
  [BitVec.ofNat 32 v, BitVec.ofNat 32 (v / 2 ^ 32), BitVec.ofNat 32 (v / 2 ^ 64)]

/-- The instruction the decoder reads from a word numbered as spec/opcode_table.json numbers it. -/
def decodeTableWord (nbits w : Nat) : Option Instr :=
  match decode defaultOpc (tableWords nbits w) with
  | .ok i => some i
  | .error _ => none

end Sys2Proof
end

