-- ==== Sys2Proof/Machine/State.lean ====
section
/-! DEFINITION. The state of the core (10_state.md), the reasons a step can stop, and the state after reset. -/

namespace Sys2Proof.Machine

/-- The fault kinds of 60_exceptions.md R250. The step that meets one takes it: its next state has status `Faulted(F)` and
whatever effects came before (R251, R253). `Host.Outcome.fault F` is then the answer to every later step asked of that stopped core
(R252; log 31). -/
inductive Fault where
  /-- Raised by fetch and decode: bits 7..0 of the opcode word are no `OPC(m)`, or the image ends inside the instruction
  (30_encoding.md R88, R90). Safe: the machine stops. -/
  | invalidProgram
  /-- Raised by `pop` and `ret` on an empty stack (46_stack.md R222, 47_call_ret.md R232). Safe: the machine stops. -/
  | invalidStack
  /-- Raised by `push` and `call` below the stack floor (46_stack.md R220, 47_call_ret.md R230). Safe: the machine stops. -/
  | stackOverflow
  /-- Raised by `div` and `mod` with a zero divisor (41_arithmetic.md R144, 43_modulo.md R180). Safe: the machine stops. -/
  | divideByZero
  /-- Raised by operand resolution, write-back and stack access outside 0..LAST, and by a fetch at a negative `ip`
  (20_memory.md R56, 30_encoding.md R89). Safe: the machine stops where the original may go on (log 10). -/
  | outOfRange
deriving DecidableEq, Repr

/-- The refusal reasons of 60_exceptions.md R254, which a status `Refused(R)` records. -/
inductive RefusalReason where
  /-- `shl` or `shr` by a negative count (41_arithmetic.md R148, R149). Safe: the machine stops (log 8). -/
  | negativeShift
  /-- A finite realisation about to write a value outside `CELL_BOUND` (10_state.md R22). Safe: the machine stops (log 5). -/
  | cellBound
deriving DecidableEq, Repr

/-- Why a step is refused. -/
inductive Refusal where
  /-- Raised by an arm of `exec` whose instruction has no meaning yet; no arm is such. Safe: the machine stops. -/
  | notModelled (mnemonic : String)
  /-- Raised by a step asked of a core whose status is `Refused(R)`, which takes no further step (10_state.md R38; log 31).
  Safe: the machine stands still. -/
  | stopped (reason : RefusalReason)
deriving DecidableEq, Repr

/-- The status of the core (10_state.md R38). -/
inductive Status where
  | running
  | halted
  | faulted (f : Fault)
  | refused (r : RefusalReason)
deriving DecidableEq, Repr

/-- The machine image: the cells that are not 0, as (address, value) pairs, addresses strictly rising (10_state.md R20). The unit is
the whole integer cell, which has no bytes (20_memory.md R54; log 4). -/
abbrev Memory := List (Nat × Cell)

/-- The canonical form of the machine image: addresses strictly rising, and no entry equal to what an unlisted cell reads as. -/
abbrev Memory.wf (m : Memory) : Prop := m.Pairwise (fun p q => p.1 < q.1) ∧ ∀ p ∈ m, p.2 ≠ 0

/-- The complete state of the core (10_state.md R36), with the parameters it was constructed with (R281). The general registers,
`ip`, `REM` and `FLAGS` are cells 0..8 of `mem` (R20). -/
structure State where
  /-- `MEMORY_SIZE`, `STACK_SIZE`, `CELL_BOUND` and `OPC` (00_scope.md R6); no step writes it. -/
  cfg : Config
  /-- The program image `P` (10_state.md R40); no step writes it. -/
  image : List Word
  /-- The machine image (10_state.md R20). -/
  mem : Memory
  /-- The stack pointer (10_state.md R31). -/
  esp : Int
  /-- The executed-operation counter (10_state.md R37). -/
  ops : Nat
  /-- The status (10_state.md R38). -/
  status : Status
  /-- The output stream, oldest first (10_state.md R39). -/
  output : List Cell
deriving DecidableEq, Repr

/-- A core with the configuration `c` and the program image `p` right after its construction (10_state.md R42,
70_reset_and_hazards.md R280). -/
def State.initial (c : Config) (p : List Word) : State :=
  { cfg := c, image := p, mem := [], esp := c.memorySize - 1, ops := 0, status := .running, output := [] }

/-- The default configuration (00_scope.md R6): default sizes, no `CELL_BOUND`, the default `OPC`. -/
def State.defaultConfig : Config :=
  { memorySize := Config.defaultMemorySize, stackSize := Config.defaultStackSize, cellBound := none, opc := defaultOpc }

/-- The machine right after reset, in the default configuration (10_state.md R42). DESIGN CHOICE: no program has been loaded, so the
image is empty; a program comes from outside, at construction (log 30). -/
def State.reset : State := State.initial State.defaultConfig []

end Sys2Proof.Machine
end

