-- ==== Sys2Proof/Machine/Ops.lean ====
section
/-! DEFINITION. The named operations over the state: the cells of the machine image, the named cells, raising a fault, refusing,
completing an instruction, write-back and the stack (00_scope.md R8, 10_state.md, 20_memory.md, 30_encoding.md section 6,
46_stack.md, 60_exceptions.md). -/

namespace Sys2Proof.Machine

/-- What executing an instruction answers. -/
abbrev Result := Host.Outcome State Fault Refusal

/-! ## The parameters -/

/-- `LAST`, the last machine-image address (00_scope.md R6). -/
def lastCell (c : Config) : Int := c.memorySize - 1

/-- `FLOOR`, the lowest cell the stack may fill (00_scope.md R6). -/
def stackFloor (c : Config) : Int := lastCell c - c.stackSize

/-- The value is inside `CELL_BOUND`; every value is, where there is no bound (10_state.md R22). -/
def fits (c : Config) (v : Int) : Bool :=
  match c.cellBound with
  | none => true
  | some b => decide (b.lo ≤ v ∧ v ≤ b.hi)

/-! ## The machine image as data -/

/-- The value of a cell; an unlisted cell reads 0, its reset value (10_state.md R42). -/
def Memory.read : Memory → Nat → Cell
  | [], _ => 0
  | (k, v) :: m, a => if k = a then v else Memory.read m a

/-- The cells without an entry for `a`. -/
def Memory.erase (m : Memory) (a : Nat) : Memory := m.filter (fun p => p.1 != a)

/-- The cells with the entry `(a, v)` before the first entry of a larger address. -/
def Memory.insert (a : Nat) (v : Cell) : Memory → Memory
  | [] => [(a, v)]
  | p :: m => if a < p.1 then (a, v) :: p :: m else p :: Memory.insert a v m

/-- The cells with the value `v` at `a`, in canonical form: a 0 is not listed. -/
def Memory.write (m : Memory) (a : Nat) (v : Cell) : Memory :=
  if v = 0 then Memory.erase m a else Memory.insert a v (Memory.erase m a)

/-! ## The named cells (10_state.md R20) -/

/-- The value of cell `n`. -/
def State.cell (s : State) (n : Nat) : Cell := Memory.read s.mem n

/-- Set cell `n` to `v`. -/
def State.setCell (s : State) (n : Nat) (v : Cell) : State := { s with mem := Memory.write s.mem n v }

/-- The instruction pointer, cell 6 (10_state.md R25). The named cells 6, 7 and 8 exist in every legal configuration (R21), so their
use by name is not range-checked: DEDUCED, safe (log 32). -/
def State.ip (s : State) : Int := s.cell 6

/-- The remainder register, cell 7 (10_state.md R27). -/
def State.remainder (s : State) : Int := s.cell 7

/-- The flag register, cell 8 (10_state.md R28). -/
def State.flags (s : State) : Int := s.cell 8

/-- `pc <- t` (00_scope.md R8). -/
def State.setIp (s : State) (t : Int) : State := s.setCell 6 t

/-- `pc <- MemRead(6, 1) + len`, on the value cell 6 holds after the instruction's own writes (30_encoding.md R96; log 13). -/
def State.advance (s : State) (len : Nat) : State := s.setIp (s.ip + len)

/-! ## The other state -/

/-- Set the stack pointer (10_state.md R31). -/
def State.setEsp (s : State) (v : Int) : State := { s with esp := v }

/-- Set the status (10_state.md R38). -/
def State.setStatus (s : State) (st : Status) : State := { s with status := st }

/-- `emit(v)`: append `v` to the output stream (48_nop_prn.md R242). -/
def State.emit (s : State) (v : Int) : State := { s with output := s.output ++ [v] }

/-- `ops <- ops + 1` (30_encoding.md R97). -/
def State.countOp (s : State) : State := { s with ops := s.ops + 1 }

/-! ## Memory access (20_memory.md R56) -/

/-- The address is in 0..LAST (20_memory.md R56). -/
def inRange (c : Config) (a : Int) : Bool := decide (0 ≤ a ∧ a ≤ lastCell c)

/-- `MemRead(a, 1)`; `none` is `OutOfRange` (00_scope.md R8). -/
def memRead (s : State) (a : Int) : Option Cell :=
  if inRange s.cfg a then some (s.cell a.toNat) else none

/-- `MemWrite(a, 1, v)`; `none` is `OutOfRange` (00_scope.md R8). -/
def memWrite (s : State) (a : Int) (v : Cell) : Option State :=
  if inRange s.cfg a then some (s.setCell a.toNat v) else none

/-! ## Stopping and completing -/

/-- `raise F` (00_scope.md R8, 60_exceptions.md R251, R253): TAKING A FAULT. The status becomes `Faulted(F)`, which is the only record;
the changes already in `s` stay; `ip` and `ops` are as they are. Nothing is saved, no mode changes and control goes nowhere (R258).
There is no return from a fault (R259), so none is defined. -/
def raise (f : Fault) (s : State) : Result := .next (s.setStatus (.faulted f))

/-- `refuse R` (00_scope.md R8, 60_exceptions.md R254): the status becomes `Refused(R)`. Its callers give it the state from before the
step, so that a refused step writes nothing. -/
def refuse (r : RefusalReason) (s : State) : Result := .next (s.setStatus (.refused r))

/-- End a step that would otherwise complete (30_encoding.md R97, 60_exceptions.md R254, R255 point 9). `s` is the state before the
step, `t` the state after all the instruction's writes, `written` every value the step wrote to a cell, to `esp` or to the output,
other than the new `ip`. If each of them and the new `ip` are inside `CELL_BOUND`, the step completes and counts; else it is refused
and nothing is written. -/
def complete (s t : State) (written : List Int) : Result :=
  if (t.ip :: written).all (fits s.cfg) then .next t.countOp else refuse .cellBound s

/-- Complete with the instruction pointer advanced past the `len` words of the instruction (30_encoding.md R96). -/
def completeAdvance (s t : State) (len : Nat) (written : List Int) : Result :=
  complete s (t.advance len) written

/-- Write back `v` (`change_dest`, 30_encoding.md R95) and complete: `MemWrite(dw, 1, v)` on the state `t` the instruction has made
so far, whatever the operand's addressed bit, then the advance. `written` are the values written before. An address outside 0..LAST
raises `OutOfRange` and keeps `t` (60_exceptions.md R253). -/
def writeBackFrom (s t : State) (dest : Operand) (len : Nat) (v : Int) (written : List Int) : Result :=
  match memWrite t dest.word.toNat v with
  | none => raise .outOfRange t
  | some u => completeAdvance s u len (v :: written)

/-- Write back as the first write of the step. -/
def writeBack (s : State) (dest : Operand) (len : Nat) (v : Int) : Result := writeBackFrom s s dest len v []

/-! ## The stack (10_state.md R32, 46_stack.md) -/

/-- Push `v`, then go on with the state after it (46_stack.md R220): below the floor raises `StackOverflow` with nothing written. -/
def pushThen (s : State) (v : Int) (k : State → Result) : Result :=
  if s.esp < stackFloor s.cfg then raise .stackOverflow s
  else
    match memWrite s s.esp v with
    | none => raise .outOfRange s
    | some t => k (t.setEsp (s.esp - 1))

/-- Pop, then go on with the state after it and the popped value (46_stack.md R222): `esp` is incremented first and stays so when the
stack was empty. -/
def popThen (s : State) (k : State → Int → Result) : Result :=
  let t := s.setEsp (s.esp + 1)
  if lastCell t.cfg < t.esp then raise .invalidStack t
  else
    match memRead t t.esp with
    | none => raise .outOfRange t
    | some v => k t v

end Sys2Proof.Machine
end

