-- ==== Sys2Proof/Machine/Operands.lean ====
section
/-! DEFINITION. The operand address resolver (30_encoding.md R92, R93). -/

namespace Sys2Proof.Machine

/-- The value of an operand: the cell its word names when it is addressed (`none` is `OutOfRange`), the word itself read as a
non-negative integer when it is direct (30_encoding.md R73, R92, R93). -/
def resolve (s : State) (o : Operand) : Option Int :=
  if o.addressed then memRead s o.word.toNat else some (o.word.toNat : Int)

/-- Resolve the destination, then go on with its value `d` (30_encoding.md R92). Every instruction of arity 1 or 2 does so, those that
never use `d` too (log 12). -/
def withDest (s : State) (dest : Operand) (k : Int → Result) : Result :=
  match resolve s dest with
  | none => raise .outOfRange s
  | some d => k d

/-- Resolve the destination and then the source, both before any effect (30_encoding.md R93, 20_memory.md R63). -/
def withOperands (s : State) (dest src : Operand) (k : Int → Int → Result) : Result :=
  withDest s dest (fun d => withDest s src (fun v => k d v))

end Sys2Proof.Machine
end

