-- ==== Sys2Proof/Machine/Arithmetic.lean ====
section
/-! DEFINITION. Binary arithmetic and logic (41_arithmetic.md): each resolves `d` and `s`, writes one value back and advances by 3 (R140). -/

namespace Sys2Proof.Machine

/-- `add dest, src`: dest := d + s, exact (41_arithmetic.md R141). -/
def execAdd (dest src : Operand) (s : State) : Result :=
  withOperands s dest src (fun d v => writeBack s dest 3 (d + v))

/-- `sub dest, src`: dest := d - s, exact (41_arithmetic.md R142). -/
def execSub (dest src : Operand) (s : State) : Result :=
  withOperands s dest src (fun d v => writeBack s dest 3 (d - v))

/-- `mul dest, src`: dest := d * s, the exact product (41_arithmetic.md R143). -/
def execMul (dest src : Operand) (s : State) : Result :=
  withOperands s dest src (fun d v => writeBack s dest 3 (d * v))

/-- `div dest, src`: the quotient truncated toward zero; a zero divisor raises `DivideByZero` before any write. `REM` is not written
(41_arithmetic.md R144; log 6, 7). -/
def execDiv (dest src : Operand) (s : State) : Result :=
  withOperands s dest src (fun d v => if v = 0 then raise .divideByZero s else writeBack s dest 3 (tdiv d v))

/-- `and dest, src`: dest := d AND s, bitwise on the two's-complement form (41_arithmetic.md R145). -/
def execAnd (dest src : Operand) (s : State) : Result :=
  withOperands s dest src (fun d v => writeBack s dest 3 (bitAnd d v))

/-- `or dest, src`: dest := d OR s, bitwise on the two's-complement form (41_arithmetic.md R146). -/
def execOr (dest src : Operand) (s : State) : Result :=
  withOperands s dest src (fun d v => writeBack s dest 3 (bitOr d v))

/-- `xor dest, src`: dest := d XOR s, bitwise on the two's-complement form (41_arithmetic.md R147). -/
def execXor (dest src : Operand) (s : State) : Result :=
  withOperands s dest src (fun d v => writeBack s dest 3 (bitXor d v))

/-- `shl dest, src`: dest := d * 2^s; a negative count is refused with `NegativeShift` (41_arithmetic.md R148; log 8). -/
def execShl (dest src : Operand) (s : State) : Result :=
  withOperands s dest src (fun d v => if v < 0 then refuse .negativeShift s else writeBack s dest 3 (shiftLeft d v))

/-- `shr dest, src`: dest := floor_div(d, 2^s); a negative count is refused with `NegativeShift` (41_arithmetic.md R149; log 8). -/
def execShr (dest src : Operand) (s : State) : Result :=
  withOperands s dest src (fun d v => if v < 0 then refuse .negativeShift s else writeBack s dest 3 (shiftRight d v))

end Sys2Proof.Machine
end

