-- ==== Sys2Proof/Machine/CallRet.lean ====
section
/-! DEFINITION. Call and return (47_call_ret.md). -/

namespace Sys2Proof.Machine

/-- `call target`: push the return address ip + 2, then ip := d, which was resolved before the push (47_call_ret.md R230, R231). -/
def execCall (dest : Operand) (s : State) : Result :=
  withDest s dest (fun d => pushThen s (s.ip + 2) (fun t => complete s (t.setIp d) [s.ip + 2, t.esp]))

/-- `ret`: pop the return address into ip, with no advance (47_call_ret.md R232). -/
def execRet (s : State) : Result := popThen s (fun t v => complete s (t.setIp v) [t.esp])

end Sys2Proof.Machine
end

