-- ==== Sys2Proof/Machine/Flags.lean ====
section
/-! DEFINITION. The flag register: its bits, what `cmp` computes, and the conditions of the jumps (10_state.md R28, 44_compare.md,
45_jumps.md R201). -/

namespace Sys2Proof.Machine

/-- The zero flag, bit 0 (10_state.md R28). -/
def State.zf (s : State) : Bool := bit s.flags 0

/-- The sign flag, bit 1 (10_state.md R28). -/
def State.sf (s : State) : Bool := bit s.flags 1

/-- The overflow flag, bit 2, which no instruction computes (10_state.md R28, R29). -/
def State.of (s : State) : Bool := bit s.flags 2

/-- The value `cmp` writes to the whole of `FLAGS`: ZF in bit 0, SF in bit 1, all else 0 (44_compare.md R190). -/
def cmpFlags (d s : Int) : Int :=
  (if d - s = 0 then 1 else 0) + (if d - s < 0 then 2 else 0)

/-- `je`: zf (45_jumps.md R201). -/
def condE (s : State) : Bool := s.zf

/-- `jne`: not zf (45_jumps.md R201). -/
def condNe (s : State) : Bool := !s.zf

/-- `jl`: sf ≠ of (45_jumps.md R201). -/
def condL (s : State) : Bool := s.sf != s.of

/-- `jle`: zf or sf ≠ of (45_jumps.md R201). -/
def condLe (s : State) : Bool := s.zf || (s.sf != s.of)

/-- `jg`: not zf and sf = of (45_jumps.md R201). -/
def condG (s : State) : Bool := !s.zf && (s.sf == s.of)

/-- `jge`: sf = of (45_jumps.md R201). -/
def condGe (s : State) : Bool := s.sf == s.of

end Sys2Proof.Machine
end

