-- ==== Sys2Proof/Machine/Compare.lean ====
section
/-! DEFINITION. Compare (44_compare.md). -/

namespace Sys2Proof.Machine

/-- `cmp dest, src`: the whole of `FLAGS` from d - s; no operand is written (44_compare.md R190). -/
def execCmp (dest src : Operand) (s : State) : Result :=
  withOperands s dest src (fun d v => completeAdvance s (s.setCell 8 (cmpFlags d v)) 3 [cmpFlags d v])

end Sys2Proof.Machine
end

