-- ==== Sys2Proof/Machine/DataMove.lean ====
section
/-! DEFINITION. Data move (40_data_move.md). -/

namespace Sys2Proof.Machine

/-- `mov dest, src`: dest := s. The destination is resolved although its value is not used (40_data_move.md R130). -/
def execMov (dest src : Operand) (s : State) : Result :=
  withOperands s dest src (fun _ v => writeBack s dest 3 v)

end Sys2Proof.Machine
end

