-- ==== Sys2Proof/Machine/Jumps.lean ====
section
/-! DEFINITION. Jumps (45_jumps.md). -/

namespace Sys2Proof.Machine

/-- Jump to `d`: `pc <- d`, with no check, scaling or advance (45_jumps.md R200, R208). -/
def jumpTo (s : State) (d : Int) : Result := complete s (s.setIp d) []

/-- A conditional jump on the condition `c`: the target is resolved before the test; untaken, the advance is 2 (45_jumps.md R202). -/
def jumpIf (c : State → Bool) (dest : Operand) (s : State) : Result :=
  withDest s dest (fun d => if c s then jumpTo s d else completeAdvance s s 2 [])

/-- `jmp target`: ip := d (45_jumps.md R200). -/
def execJmp (dest : Operand) (s : State) : Result := withDest s dest (fun d => jumpTo s d)

/-- `je target`: jump if zf (45_jumps.md R201, R202). -/
def execJe (dest : Operand) (s : State) : Result := jumpIf condE dest s

/-- `jne target`: jump if not zf (45_jumps.md R201, R203). -/
def execJne (dest : Operand) (s : State) : Result := jumpIf condNe dest s

/-- `jl target`: jump if sf ≠ of (45_jumps.md R201, R204). -/
def execJl (dest : Operand) (s : State) : Result := jumpIf condL dest s

/-- `jle target`: jump if zf or sf ≠ of (45_jumps.md R201, R205). -/
def execJle (dest : Operand) (s : State) : Result := jumpIf condLe dest s

/-- `jg target`: jump if not zf and sf = of (45_jumps.md R201, R206). -/
def execJg (dest : Operand) (s : State) : Result := jumpIf condG dest s

/-- `jge target`: jump if sf = of (45_jumps.md R201, R207). -/
def execJge (dest : Operand) (s : State) : Result := jumpIf condGe dest s

end Sys2Proof.Machine
end

