-- ==== Sys2Proof/Machine/Modulo.lean ====
section
/-! DEFINITION. Modulo and remainder fetch (43_modulo.md). -/

namespace Sys2Proof.Machine

/-- `mod dest, src`: REM := tmod(d, s), the remainder of the truncating division; a zero divisor raises `DivideByZero` before any
write. The destination is not written (43_modulo.md R180). -/
def execMod (dest src : Operand) (s : State) : Result :=
  withOperands s dest src (fun d v =>
    if v = 0 then raise .divideByZero s
    else completeAdvance s (s.setCell 7 (tmod d v)) 3 [tmod d v])

/-- `rem dest`: dest := REM. The destination is resolved although its value is not used (43_modulo.md R182). -/
def execRem (dest : Operand) (s : State) : Result :=
  withDest s dest (fun _ => writeBack s dest 2 s.remainder)

end Sys2Proof.Machine
end

