-- ==== Sys2Proof/Machine/NopPrn.lean ====
section
/-! DEFINITION. No-op and output (48_nop_prn.md). -/

namespace Sys2Proof.Machine

/-- `nop`: ip += 1 (48_nop_prn.md R240). -/
def execNop (s : State) : Result := completeAdvance s s 1 []

/-- `prn value`: append d to the output stream (48_nop_prn.md R241, R242). -/
def execPrn (dest : Operand) (s : State) : Result :=
  withDest s dest (fun d => completeAdvance s (s.emit d) 2 [d])

end Sys2Proof.Machine
end

