-- ==== Sys2Proof/Machine/Stack.lean ====
section
/-! DEFINITION. Stack (46_stack.md). -/

namespace Sys2Proof.Machine

/-- `push value`: the cell at `esp` := d, then `esp` down by one (46_stack.md R220). -/
def execPush (dest : Operand) (s : State) : Result :=
  withDest s dest (fun d => pushThen s d (fun t => completeAdvance s t 2 [d, t.esp]))

/-- `pop dest`: `esp` up by one, then dest := the cell at `esp`; the destination is resolved first although its value is not used
(46_stack.md R222). -/
def execPop (dest : Operand) (s : State) : Result :=
  withDest s dest (fun _ => popThen s (fun t v => writeBackFrom s t dest 2 v [t.esp]))

end Sys2Proof.Machine
end

