-- ==== Sys2Proof/Machine/Unary.lean ====
section
/-! DEFINITION. Unary arithmetic (42_unary.md): each resolves `d`, writes one value back and advances by 2 (R170). -/

namespace Sys2Proof.Machine

/-- `inc dest`: dest := d + 1, exact (42_unary.md R171). -/
def execInc (dest : Operand) (s : State) : Result :=
  withDest s dest (fun d => writeBack s dest 2 (d + 1))

/-- `dec dest`: dest := d - 1, exact (42_unary.md R172). -/
def execDec (dest : Operand) (s : State) : Result :=
  withDest s dest (fun d => writeBack s dest 2 (d - 1))

/-- `not dest`: dest := -d - 1, exact (42_unary.md R173). -/
def execNot (dest : Operand) (s : State) : Result :=
  withDest s dest (fun d => writeBack s dest 2 (bitNot d))

end Sys2Proof.Machine
end

