-- ==== Sys2Proof/Machine/Dispatch.lean ====
section
/-! DEFINITION. The dispatch: one arm per constructor of Instr, each one direct call of that instruction's meaning. -/

namespace Sys2Proof.Machine

def exec (i : Instr) (s : State) : Host.Outcome State Fault Refusal :=
  match i with
  | .nop => Sys2Proof.Machine.execNop s
  | .mov dest src => Sys2Proof.Machine.execMov dest src s
  | .cmp dest src => Sys2Proof.Machine.execCmp dest src s
  | .jmp dest => Sys2Proof.Machine.execJmp dest s
  | .je dest => Sys2Proof.Machine.execJe dest s
  | .jne dest => Sys2Proof.Machine.execJne dest s
  | .jl dest => Sys2Proof.Machine.execJl dest s
  | .jle dest => Sys2Proof.Machine.execJle dest s
  | .jg dest => Sys2Proof.Machine.execJg dest s
  | .jge dest => Sys2Proof.Machine.execJge dest s
  | .mod dest src => Sys2Proof.Machine.execMod dest src s
  | .rem dest => Sys2Proof.Machine.execRem dest s
  | .inc dest => Sys2Proof.Machine.execInc dest s
  | .dec dest => Sys2Proof.Machine.execDec dest s
  | .not dest => Sys2Proof.Machine.execNot dest s
  | .add dest src => Sys2Proof.Machine.execAdd dest src s
  | .sub dest src => Sys2Proof.Machine.execSub dest src s
  | .mul dest src => Sys2Proof.Machine.execMul dest src s
  | .div dest src => Sys2Proof.Machine.execDiv dest src s
  | .and dest src => Sys2Proof.Machine.execAnd dest src s
  | .or dest src => Sys2Proof.Machine.execOr dest src s
  | .xor dest src => Sys2Proof.Machine.execXor dest src s
  | .shl dest src => Sys2Proof.Machine.execShl dest src s
  | .shr dest src => Sys2Proof.Machine.execShr dest src s
  | .push dest => Sys2Proof.Machine.execPush dest s
  | .pop dest => Sys2Proof.Machine.execPop dest s
  | .call dest => Sys2Proof.Machine.execCall dest s
  | .ret => Sys2Proof.Machine.execRet s
  | .prn dest => Sys2Proof.Machine.execPrn dest s

end Sys2Proof.Machine
end

