-- ==== Sys2Proof/Machine/Cycle.lean ====
section
/-! DEFINITION. One cycle of a running core: the halt test, the fetch, the decoder, the execution (30_encoding.md R88 to R98); and
where a word is placed so that the next cycle fetches it. -/

namespace Sys2Proof.Machine

/-- Decode the instruction at the instruction pointer (30_encoding.md R88, R90): fetch reads the program image only, never the
machine image (20_memory.md R66). -/
def fetch (s : State) : Except DecodeError Instr := decode s.cfg.opc (s.image.drop s.ip.toNat)

/-- One step of a core whose status is Running, in the order of 30_encoding.md R98: the halt test, the negative `ip`, the decoder,
the instruction. The instruction counts itself (R97). -/
def cycle (s : State) : Result :=
  if (s.image.length : Int) ≤ s.ip then .next (s.setStatus .halted)
  else if s.ip < 0 then raise .outOfRange s
  else
    match fetch s with
    | .error _ => raise .invalidProgram s
    | .ok i => exec i s

/-- A step asked of a core that is not Running. The spec takes none ("`Halted`, `Faulted` and `Refused` are terminal", 10_state.md R38):
a halted core stays as it is, a faulted core answers its fault, a refused core its refusal. DESIGN CHOICE, safe (log 31). -/
def stopped (s : State) : Status → Result
  | .faulted f => .fault f
  | .refused r => .refused (.stopped r)
  | .halted | .running => .next s

/-- `ws` written over the words of `p` from index `n` on, the words before it filled up with 0 where `p` is shorter. -/
def overlay (p : List Word) (n : Nat) (ws : List Word) : List Word :=
  p.take n ++ List.replicate (n - p.length) 0 ++ ws ++ p.drop (n + ws.length)

/-- The state with `ws` at the instruction pointer of a running core. A status other than Running becomes Running and a negative `ip`
becomes 0, without which nothing is fetched: DESIGN CHOICE of the host's probe, safe (log 34). -/
def placeAtIp (s : State) (ws : List Word) : State :=
  let t := if s.ip < 0 then s.setIp 0 else s
  { t with image := overlay t.image t.ip.toNat ws, status := .running }

end Sys2Proof.Machine
end

