-- ==== Sys2Proof/Machine/Step.lean ====
section
/-! DEFINITION. The step (30_encoding.md R98, 10_state.md R38), and the host's placing of an instruction where it fetches. -/

namespace Sys2Proof.Machine

/-- One step: a cycle of a running core; a core that is not Running takes none (10_state.md R38). -/
def step (s : State) : Host.Outcome State Fault Refusal :=
  match s.status with
  | .running => cycle s
  | st => stopped s st

/-- The state with the instruction whose bits are `w`, numbered as spec/opcode_table.json numbers them, where the next step fetches. -/
def State.withFetchWord (s : State) (nbits w : Nat) : State := placeAtIp s (tableWords nbits w)

end Sys2Proof.Machine
end

