-- ==== Sys2Proof/Machine/Linker.lean ====
section
/-! DEFINITION. The linker engine (30_encoding.md sections 7 and 8, 10_state.md R43, 60_exceptions.md R256): instruction nodes in, the
program image out, in two passes. -/

namespace Sys2Proof.Machine

/-! ## Its input (00_scope.md R5, R11; 30_encoding.md R81) -/

/-- An operand of an instruction node, by kind (30_encoding.md R81). -/
inductive NodeOperand where
  /-- A register, by name. -/
  | register (name : String)
  /-- An explicit machine-image address. -/
  | memoryOffset (n : Int)
  /-- An immediate integer. -/
  | literal (v : Int)
  /-- A label, resolved at link time. -/
  | labelRef (label : String)
deriving DecidableEq, Repr

/-- An instruction node, `label, mnemonic, operands` (00_scope.md R11). -/
structure Node where
  label : Option String
  mnemonic : String
  operands : List NodeOperand
deriving DecidableEq, Repr

/-- The errors of the linker engine (60_exceptions.md R256). `ParseError` belongs to the excluded grammar layer. -/
inductive LinkError where
  | unknownMnemonic
  | contractViolation
  | literalOutOfRange
  /-- `LinkError(L)`: the label is used and never defined. -/
  | undefinedLabel (label : String)
  /-- A used label's offset does not fit a 32-bit word. DESIGN CHOICE: the spec gives no behaviour for an image of 2^32 words or
  more; safe, the link fails (log 33). -/
  | offsetOutOfRange
deriving DecidableEq, Repr

/-- The state of one run (10_state.md R43): the words emitted so far, the label offsets (latest definition first), and the pending
uses of destination and of source operands as (label, word position) pairs. -/
structure LinkState where
  out : List Word
  labels : List (String × Nat)
  pendingDest : List (String × Nat)
  pendingSrc : List (String × Nat)
deriving DecidableEq, Repr

/-- The start of a run: everything empty (10_state.md R43). -/
def LinkState.empty : LinkState := { out := [], labels := [], pendingDest := [], pendingSrc := [] }

/-! ## Names -/

/-- The spelling of a mnemonic (00_scope.md R2). -/
def mnemonicName : Mnemonic → String
  | .nop => "nop"
  | .mov => "mov"
  | .cmp => "cmp"
  | .jmp => "jmp"
  | .je => "je"
  | .jne => "jne"
  | .jl => "jl"
  | .jle => "jle"
  | .jg => "jg"
  | .jge => "jge"
  | .mod => "mod"
  | .rem => "rem"
  | .inc => "inc"
  | .dec => "dec"
  | .not => "not"
  | .add => "add"
  | .sub => "sub"
  | .mul => "mul"
  | .div => "div"
  | .and => "and"
  | .or => "or"
  | .xor => "xor"
  | .shl => "shl"
  | .shr => "shr"
  | .push => "push"
  | .pop => "pop"
  | .call => "call"
  | .ret => "ret"
  | .prn => "prn"

/-- The mnemonic a name spells, if it is one of the 29 (30_encoding.md R112). -/
def mnemonicOfName (name : String) : Option Mnemonic := Mnemonic.all.find? (fun m => mnemonicName m == name)

/-- The register names of cells 0..5, in order (10_state.md R23; log 2). -/
def registerNames : List String := ["eax", "ebx", "ecx", "edx", "esi", "edi"]

/-- The cell of a register name, if it is one of the six (10_state.md R23, R24). -/
def registerCell (name : String) : Option Nat := registerNames.idxOf? name

/-! ## The input contract (30_encoding.md R83, R116) -/

/-- The operand is a Register or a MemoryOffset (30_encoding.md R81). -/
def NodeOperand.isAddressed : NodeOperand → Bool
  | .register _ | .memoryOffset _ => true
  | .literal _ | .labelRef _ => false

/-- A Register operand has one of the six names (30_encoding.md R116). -/
def NodeOperand.nameOk : NodeOperand → Bool
  | .register name => (registerCell name).isSome
  | .memoryOffset _ | .literal _ | .labelRef _ => true

/-- The node keeps the contract: the operand count is the arity, a write-back destination is addressed, register names are known
(30_encoding.md R116). -/
def contractOk (m : Mnemonic) (ops : List NodeOperand) : Bool :=
  ops.length == m.arity && (!m.writesDest || (ops.head?.map (·.isAddressed)).getD true) && ops.all (·.nameOk)

/-! ## First pass (30_encoding.md R110 to R117) -/

/-- A Literal or MemoryOffset value as an operand word; `none` is `LiteralOutOfRange` (30_encoding.md R82). -/
def literalWord (v : Int) : Option Word :=
  if 0 ≤ v ∧ v < 2 ^ 32 then some (BitVec.ofNat 32 v.toNat) else none

/-- The word an operand emits: its address, its value, or the placeholder 0 of a label (30_encoding.md R113 to R115; log 17). -/
def NodeOperand.word : NodeOperand → Option Word
  | .register name => (registerCell name).map (BitVec.ofNat 32)
  | .memoryOffset n => literalWord n
  | .literal v => literalWord v
  | .labelRef _ => some 0

/-- The words of all operands in order; the first that is out of range fails (30_encoding.md R122). -/
def operandWords : List NodeOperand → Option (List Word)
  | [] => some []
  | o :: os => o.word.bind (fun w => (operandWords os).map (w :: ·))

/-- The pending use an operand at word position `p` records (30_encoding.md R113). -/
def pendingUse (p : Nat) : Option NodeOperand → List (String × Nat)
  | some (.labelRef l) => [(l, p)]
  | _ => []

/-- Record a label definition at the current word offset (30_encoding.md R111). A later definition is found first (R117). -/
def LinkState.define (st : LinkState) : Option String → LinkState
  | none => st
  | some l => { st with labels := (l, st.out.length) :: st.labels }

/-- The state after the words `ws` of the operands `ops` of `m` have been emitted (30_encoding.md R111 to R114). -/
def LinkState.emit (st : LinkState) (o : OpcMap) (m : Mnemonic) (ops : List NodeOperand) (ws : List Word) : LinkState :=
  let at0 := st.out.length
  { st with
    out := st.out ++ opcodeWord (o.of m) (ops[0]?.map (·.isAddressed)) (ops[1]?.map (·.isAddressed)) :: ws
    pendingDest := st.pendingDest ++ pendingUse (at0 + 1) ops[0]?
    pendingSrc := st.pendingSrc ++ pendingUse (at0 + 2) ops[1]? }

/-- One node of the first pass: the label, then the mnemonic, then the contract, then the operand values (30_encoding.md R122,
60_exceptions.md R256). -/
def linkNode (o : OpcMap) (st : LinkState) (n : Node) : Except LinkError LinkState :=
  match mnemonicOfName n.mnemonic with
  | none => .error .unknownMnemonic
  | some m =>
    if contractOk m n.operands then
      match operandWords n.operands with
      | none => .error .literalOutOfRange
      | some ws => .ok ((st.define n.label).emit o m n.operands ws)
    else .error .contractViolation

/-- The first pass over the nodes in order; it reports the first offending node (60_exceptions.md R256). -/
def firstPass (o : OpcMap) : LinkState → List Node → Except LinkError LinkState
  | st, [] => .ok st
  | st, n :: ns =>
    match linkNode o st n with
    | .error e => .error e
    | .ok st' => firstPass o st' ns

/-- The implicit `jmp start` before a program in which some node carries the label `start` (30_encoding.md R110). -/
def withStart (nodes : List Node) : List Node :=
  if nodes.any (fun n => n.label == some "start") then
    { label := none, mnemonic := "jmp", operands := [.labelRef "start"] } :: nodes
  else nodes

/-! ## Second pass (30_encoding.md R118 to R120) -/

/-- The offset of a label, by its last definition (30_encoding.md R117). -/
def LinkState.offset? (st : LinkState) (l : String) : Option Nat := st.labels.lookup l

/-- The pending uses of both tables (30_encoding.md R118). -/
def LinkState.pending (st : LinkState) : List (String × Nat) := st.pendingDest ++ st.pendingSrc

/-- The labels that are used and not defined, each once. -/
def LinkState.undefinedLabels (st : LinkState) : List String :=
  ((st.pending.map (·.1)).filter (fun l => (st.offset? l).isNone)).eraseDups

/-- The label an error names when `l :: ls` are undefined: that one if it is the only one, else one of them that the spec leaves
open, a FREE VALUE (30_encoding.md R119; log 29). -/
def reportedLabel (l : String) : List String → String
  | [] => l
  | ls => (l :: ls).getD (Config.undefinedLabelChoice (l :: ls) % (ls.length + 1)) l

/-- Overwrite the word of one pending use with the label's offset (30_encoding.md R118, R120). -/
def patch (st : LinkState) (out : List Word) (use : String × Nat) : List Word :=
  match st.offset? use.1 with
  | none => out
  | some off => out.set use.2 (BitVec.ofNat 32 off)

/-- Every used label's offset fits a word (log 33). -/
def offsetsFit (st : LinkState) : Bool :=
  st.pending.all (fun use => ((st.offset? use.1).map (fun off => decide (off < 2 ^ 32))).getD true)

/-- The second pass (30_encoding.md R118). -/
def secondPass (st : LinkState) : Except LinkError (List Word) :=
  match st.undefinedLabels with
  | l :: ls => .error (.undefinedLabel (reportedLabel l ls))
  | [] => if offsetsFit st then .ok (st.pending.foldl (patch st) st.out) else .error .offsetOutOfRange

/-! ## The whole engine -/

/-- Link the nodes into the words of a program image (30_encoding.md R122). -/
def linkWords (o : OpcMap) (nodes : List Node) : Except LinkError (List Word) :=
  match firstPass o LinkState.empty (withStart nodes) with
  | .error e => .error e
  | .ok st => secondPass st

/-- `link(nodes)`: the image as a little-endian byte buffer, or an error and no image (30_encoding.md R121, 60_exceptions.md R265). -/
def link (o : OpcMap) (nodes : List Node) : Except LinkError (List Byte) := (linkWords o nodes).map bytesOfWords

end Sys2Proof.Machine
end

