-- ==== Sys2Proof/Machine/Transactions.lean ====
section
/-! DEFINITION. The host's transactions over the core (60_exceptions.md R265): construct, run, observe; link is in
Machine/Linker.lean and step in Machine/Step.lean. Also the codes of the faults (R250) and the text of an output entry
(48_nop_prn.md R242). -/

namespace Sys2Proof.Machine

/-- Why a core is not constructed (10_state.md R21, 20_memory.md R53). -/
inductive ConstructError where
  | illegalConfig
  | raggedImage
deriving DecidableEq, Repr

/-- `construct(bytes, MEMORY_SIZE, STACK_SIZE)` (70_reset_and_hazards.md R280): the configuration is checked first, then the image
length. -/
def construct (bytes : List Byte) (c : Config) : Except ConstructError State :=
  if c.Legal then
    match wordsOfBytes bytes with
    | none => .error .raggedImage
    | some p => .ok (State.initial c p)
  else .error .illegalConfig

/-- A host that stops after at most `n` steps of the run (60_exceptions.md R267): step while the status is Running. The state is then
that of a prefix of the run. -/
def runFor : Nat → State → State
  | 0, s => s
  | n + 1, s =>
    match s.status, step s with
    | .running, .next t => runFor n t
    | _, _ => s

/-- `run(core)` (60_exceptions.md R265): from `s` it returns `t`, "the state after stepping until the status is not `Running`". The core
bounds no run (30_encoding.md R100), so there may be no such `t`, and then the run does not end. -/
def Run (s t : State) : Prop := ∃ n, runFor n s = t ∧ t.status ≠ .running

/-- The run from `s` does not end: the core "runs forever" (30_encoding.md R100). -/
def RunsForever (s : State) : Prop := ∀ n, (runFor n s).status = .running

/-- The observable outputs of the core (10_state.md R41). -/
structure Observables where
  registers : List Int
  remainder : Int
  zf : Bool
  sf : Bool
  of : Bool
  ops : Nat
  depth : Int
  output : List Int
  status : Status
deriving DecidableEq, Repr

/-- The stack depth, `LAST - esp` (10_state.md R34). -/
def State.depth (s : State) : Int := lastCell s.cfg - s.esp

/-- `observe(core)` (10_state.md R41, 60_exceptions.md R265). -/
def observe (s : State) : Observables :=
  { registers := (List.range 6).map s.cell, remainder := s.remainder, zf := s.zf, sf := s.sf, of := s.of, ops := s.ops,
    depth := s.depth, output := s.output, status := s.status }

/-- The numeric code of a fault (60_exceptions.md R250; log 22). -/
def Fault.code : Fault → Nat
  | .invalidProgram => 1
  | .invalidStack => 2
  | .stackOverflow => 3
  | .divideByZero => 4
  | .outOfRange => 5

/-- The line of text of an output entry: the decimal numeral, with a leading `-` when it is negative (48_nop_prn.md R242; log 25). -/
def renderEntry (v : Int) : String := toString v

end Sys2Proof.Machine
end

