-- ==== Sys2Proof/Safety.lean ====
section
/-! DEFINITION. What counts as a sound state and a safe run, and the words the statements use for what one instruction does. -/

namespace Sys2Proof.Machine

/-! ## Sound states -/

/-- The range of the stack pointer (10_state.md R33): FLOOR-1..LAST, but LAST+1 in the state a `pop` or `ret` of an empty stack
leaves. -/
abbrev EspInRange (s : State) : Prop :=
  (s.status = .faulted .invalidStack → s.esp = lastCell s.cfg + 1) ∧
  (s.status ≠ .faulted .invalidStack → stackFloor s.cfg - 1 ≤ s.esp ∧ s.esp ≤ lastCell s.cfg)

/-- The invariant of the core: a legal configuration (10_state.md R21), the machine image in canonical form and inside 0..LAST (R20),
the stack pointer in its range (R33). -/
abbrev State.Inv (s : State) : Prop :=
  s.cfg.Legal ∧ s.mem.wf ∧ (∀ p ∈ s.mem, (p.1 : Int) ≤ lastCell s.cfg) ∧ EspInRange s

/-- Every value the core stores is inside `CELL_BOUND` (10_state.md R22): the cells that are not 0, `esp`, and the output. -/
abbrev State.WithinBound (s : State) : Prop :=
  (∀ p ∈ s.mem, fits s.cfg p.2 = true) ∧ fits s.cfg s.esp = true ∧ ∀ v ∈ s.output, fits s.cfg v = true

/-- A safe state is not refused: "a claim proved about a run must not reach one" (60_exceptions.md R254). -/
abbrev State.Safe (s : State) : Prop := ∀ r, s.status ≠ .refused r

/-! ## What one instruction does -/

/-- The cells of `s` with `v` at `n`. -/
def cellsWith (s : State) (n : Nat) (v : Int) : Nat → Int := fun a => if a = n then v else s.cell a

/-- The instruction completes, and this is the whole next state: the new `ip`; every other cell; the stack pointer; the output; one
more operation; status, configuration and program image as before. -/
def Retires (i : Instr) (s : State) (ip : Int) (cells : Nat → Int) (esp : Int) (out : List Int) : Prop :=
  ∃ t, exec i s = .next t ∧ t.ip = ip ∧ (∀ a, a ≠ 6 → t.cell a = cells a) ∧ t.esp = esp ∧ t.output = out ∧
    t.ops = s.ops + 1 ∧ t.status = s.status ∧ t.cfg = s.cfg ∧ t.image = s.image

/-- The new `ip` after `v` was written back to `dest`: the advance is applied to what cell 6 then holds (30_encoding.md R96). -/
def ipAfterWriteBack (s : State) (dest : Operand) (len : Nat) (v : Int) : Int :=
  (if dest.word.toNat = 6 then v else s.ip) + len

/-- The write-back of `v` to `dest` can be made: the cell exists (20_memory.md R56), and what is written is inside `CELL_BOUND`, which
every value is in the reference model (10_state.md R22). -/
abbrev CanWriteBack (s : State) (dest : Operand) (len : Nat) (v : Int) : Prop :=
  (dest.word.toNat : Int) ≤ lastCell s.cfg ∧ fits s.cfg v = true ∧ fits s.cfg (ipAfterWriteBack s dest len v) = true

/-- The instruction writes `v` back to `dest`, advances, and changes nothing else. -/
def WritesBack (i : Instr) (s : State) (dest : Operand) (len : Nat) (v : Int) : Prop :=
  Retires i s (ipAfterWriteBack s dest len v) (cellsWith s dest.word.toNat v) s.esp s.output

/-- The instruction, whose destination is cell 8, completes with `v` as the whole of `FLAGS`, if `v` can be written back. -/
def StoresInFlags (i : Instr) (s : State) (dest : Operand) (len : Nat) (v : Int) : Prop :=
  CanWriteBack s dest len v → ∃ t, exec i s = .next t ∧ t.flags = v ∧ t.of = bit v 2 ∧ t.ops = s.ops + 1

/-- The instruction is taken to the fault `f` and leaves everything else of `s` as it is. -/
def Faults (i : Instr) (s : State) (f : Fault) : Prop := exec i s = .next { s with status := .faulted f }

/-- `n` executions of the same instruction, one after the other, as long as each completes with the status it began with. -/
def execTimes (i : Instr) : Nat → State → Option State
  | 0, s => some s
  | n + 1, s =>
    match exec i s with
    | .next t => if t.status = s.status then execTimes i n t else none
    | _ => none

/-! ## The linker engine's input -/

/-- The number of words the nodes emit (30_encoding.md R111): `1 + (#operands)` each. -/
def wordCount (ns : List Node) : Nat := (ns.map (fun n => 1 + n.operands.length)).sum

/-- The node is accepted by the first pass: a known mnemonic, the input contract, operand values that fit (60_exceptions.md R256). -/
def Node.Accepted (n : Node) : Prop :=
  ∃ m, mnemonicOfName n.mnemonic = some m ∧ contractOk m n.operands = true ∧ (operandWords n.operands).isSome = true

/-- The operands break the input contract (30_encoding.md R116): their count is not the arity, a write-back instruction's destination
is a Literal or a LabelReference, or a Register operand has none of the six names. -/
def BreaksContract (m : Mnemonic) (ops : List NodeOperand) : Prop :=
  ops.length ≠ m.arity ∨
  (m.writesDest = true ∧ ((∃ v, ops[0]? = some (.literal v)) ∨ ∃ l, ops[0]? = some (.labelRef l))) ∨
  (∃ name, .register name ∈ ops ∧ name ∉ ["eax", "ebx", "ecx", "edx", "esi", "edi"])

/-- Some operand of the nodes refers to the label. -/
def UsesLabel (ns : List Node) (l : String) : Prop := ∃ n ∈ ns, NodeOperand.labelRef l ∈ n.operands

/-- Some node defines the label. -/
def DefinesLabel (ns : List Node) (l : String) : Prop := ∃ n ∈ ns, n.label = some l

end Sys2Proof.Machine
end

