-- ==== Sys2Proof/Certificates/Slice0/Obligations.lean ====
section
/-! DEFINITION. The statements for the provers. Each docstring names the rule or section of spec/ it formalises. A docstring says
'derived' where a clause rests on one of the spec's own decisions (spec/92) or on a choice of the model, and names it with its log
entry. Where `fits` stands in a hypothesis, it holds of every value in the reference model, which has no `CELL_BOUND` (R22). -/

open Sys2Proof Sys2Proof.Machine

/-! ## Reset and construction -/

/-- R42, R280: the core after reset in the default configuration. The values of `ops` and of the output are derived by the spec itself; the
empty image is the model's choice (log 30). -/
def Obligations.ResetState : Prop :=
  (∀ a, State.reset.cell a = 0) ∧ State.reset.ip = 0 ∧ State.reset.remainder = 0 ∧
  State.reset.zf = false ∧ State.reset.sf = false ∧ State.reset.of = false ∧
  State.reset.esp = 262143 ∧ State.reset.depth = 0 ∧ State.reset.ops = 0 ∧ State.reset.output = [] ∧
  State.reset.status = .running

/-- R280, R21, R53: construction refuses an illegal configuration, then a byte length that is no multiple of 4; else it gives the words of
the bytes, little-endian, every cell 0, `esp` LAST, and a core that halts at its first step when the image is empty. That illegal
configurations and ragged images are refused is the spec's decision D20, D21 (log 20, 21). -/
def Obligations.ConstructLoadsLittleEndianWords : Prop :=
  ∀ (bytes : List Byte) (c : Config),
    (¬ c.Legal → construct bytes c = .error .illegalConfig) ∧
    (c.Legal → bytes.length % 4 ≠ 0 → construct bytes c = .error .raggedImage) ∧
    (c.Legal → bytes.length % 4 = 0 → ∃ s, construct bytes c = .ok s ∧ s.cfg = c ∧ s.image.length = bytes.length / 4 ∧
      (∀ i, i < bytes.length / 4 → (s.image.getD i 0).toNat =
        (bytes.getD (4 * i) 0).toNat + 2 ^ 8 * (bytes.getD (4 * i + 1) 0).toNat +
        2 ^ 16 * (bytes.getD (4 * i + 2) 0).toNat + 2 ^ 24 * (bytes.getD (4 * i + 3) 0).toNat) ∧
      (∀ a, s.cell a = 0) ∧ s.esp = lastCell c ∧ s.ops = 0 ∧ s.output = [] ∧ s.status = .running ∧
      (bytes = [] → step s = .next { s with status := .halted }))

/-- Every core is constructed with the invariant: a legal configuration, a canonical machine image inside 0..LAST, `esp` in its range.
Derived from 10_state.md R20, R21, R33. -/
def Obligations.ConstructedCoreHasInvariant : Prop :=
  State.reset.Inv ∧ ∀ bytes c s, construct bytes c = .ok s → s.Inv

/-! ## Encoding -/

/-- Derived from 30_encoding.md sections 1, 2 and 5: the decoder gives every instruction back from its words, whatever words follow, under
every injective opcode map. -/
def Obligations.DecodeInvertsEncode : Prop :=
  ∀ (o : OpcMap) (i : Instr) (rest : List Word), o.Injective → decode o (encode o i ++ rest) = .ok i

/-- R79, with R88 and R91: what the decoder accepts. The opcode field alone gives the mnemonic and so the length; the operands are the
addressed bits 10 and 8 of the opcode word with the words that follow it, destination first. -/
def Obligations.OpcodeAloneGivesLengthAndOperands : Prop :=
  ∀ (o : OpcMap) (ws : List Word) (i : Instr), decode o ws = .ok i →
    ∃ w rest, ws = w :: rest ∧ lookupMnemonic o (opField w) = some i.mnemonic ∧ o.of i.mnemonic = opField w ∧
      i.len = 1 + i.mnemonic.arity ∧ i.len ≤ ws.length ∧
      (∀ d, i.dest? = some d → d.addressed = w.getLsbD 10 ∧ some d.word = rest[0]?) ∧
      (∀ s, i.src? = some s → s.addressed = w.getLsbD 8 ∧ some s.word = rest[1]?) ∧
      (i.dest?.isSome = true ↔ 1 ≤ i.mnemonic.arity) ∧ (i.src?.isSome = true ↔ i.mnemonic.arity = 2)

/-- R72: two opcode words that agree on bits 7..0, 8 and 10 decode alike, whatever their other bits; a word whose bits 7..0 name an
instruction decodes as that instruction when its operand words follow; an operand is addressed exactly when its addressed bit is 1, whatever
its direct bit; and the encoder still produces bits 7..0 and the two bits of each present operand as R70 says. -/
def Obligations.DecoderIgnoresTheOtherBits : Prop :=
  (∀ (o : OpcMap) (w w' : Word) (rest : List Word),
    (∀ k, k < 8 ∨ k = 8 ∨ k = 10 → w.getLsbD k = w'.getLsbD k) → decode o (w :: rest) = decode o (w' :: rest)) ∧
  (∀ (o : OpcMap) (w : Word) (rest : List Word) (m : Mnemonic), o.Injective → o.of m = w.extractLsb' 0 8 → m.arity ≤ rest.length →
    ∃ i, decode o (w :: rest) = .ok i ∧ i.mnemonic = m) ∧
  (∀ (o : OpcMap) (w : Word) (rest : List Word) (i : Instr), decode o (w :: rest) = .ok i →
    (∀ d, i.dest? = some d → d.addressed = w.getLsbD 10) ∧ (∀ s, i.src? = some s → s.addressed = w.getLsbD 8)) ∧
  (∀ (o : OpcMap) (i : Instr),
    (∀ k, k < 8 → (i.opcode o).getLsbD k = (o.of i.mnemonic).getLsbD k) ∧
    (∀ s, i.src? = some s → (i.opcode o).getLsbD 8 = s.addressed ∧ (i.opcode o).getLsbD 9 = !s.addressed) ∧
    (∀ d, i.dest? = some d → (i.opcode o).getLsbD 10 = d.addressed ∧ (i.opcode o).getLsbD 11 = !d.addressed))

/-- Derived from 30_encoding.md section 1 (R70, R71; bits 31..12 and the bits of absent operands are decision D19, log 19): the opcode word
of an instruction, bit by bit. -/
def Obligations.OpcodeWordLayout : Prop :=
  ∀ (o : OpcMap) (i : Instr),
    (∀ k, k < 8 → (i.opcode o).getLsbD k = (o.of i.mnemonic).getLsbD k) ∧
    (i.opcode o).getLsbD 8 = (i.src?.map (·.addressed)).getD false ∧
    (i.opcode o).getLsbD 9 = (i.src?.map (fun s => !s.addressed)).getD false ∧
    (i.opcode o).getLsbD 10 = (i.dest?.map (·.addressed)).getD false ∧
    (i.opcode o).getLsbD 11 = (i.dest?.map (fun d => !d.addressed)).getD false ∧
    (∀ k, 12 ≤ k → (i.opcode o).getLsbD k = false)

/-- Derived from the encodings of the worked examples (95_test_vectors.md; the numbers are decision D1, log 1; that words ending inside an
instruction are refused is decision D11, log 11): six encodings of the spec decode to the instructions they stand for, and two are refused
by name, one whose opcode is unknown and one that ends inside a `mov`. -/
def Obligations.SpecWordsDecode : Prop :=
  decode defaultOpc [0x00000601, 100, 7] = .ok (.mov ⟨true, 100⟩ ⟨false, 7⟩) ∧
  decode defaultOpc [0x00000501, 0, 100] = .ok (.mov ⟨true, 0⟩ ⟨true, 100⟩) ∧
  decode defaultOpc [0x00000902, 3, 9] = .ok (.cmp ⟨false, 3⟩ ⟨true, 9⟩) ∧
  decode defaultOpc [0x0000040E, 0] = .ok (.not ⟨true, 0⟩) ∧
  decode defaultOpc [0x0000081A, 7] = .ok (.call ⟨false, 7⟩) ∧
  decode defaultOpc [0x0000001B] = .ok .ret ∧
  decode defaultOpc [0x0000001D] = .error (.unknownOpcode 0x1D) ∧
  decode defaultOpc [0x00000601, 0] = .error (.truncated .mov)

/-- R52: the byte buffer of words reads back as those words and has four bytes for each; and word i of any buffer is `B[4i] + 256*B[4i+1] +
65536*B[4i+2] + 16777216*B[4i+3]`. -/
def Obligations.ImageBytesRoundTrip : Prop :=
  (∀ ws : List Word, wordsOfBytes (bytesOfWords ws) = some ws ∧ (bytesOfWords ws).length = 4 * ws.length) ∧
  (∀ (bytes : List Byte) (ws : List Word), wordsOfBytes bytes = some ws → bytes.length = 4 * ws.length ∧
    ∀ i, i < ws.length → (ws.getD i 0).toNat =
      (bytes.getD (4 * i) 0).toNat + 256 * (bytes.getD (4 * i + 1) 0).toNat +
      65536 * (bytes.getD (4 * i + 2) 0).toNat + 16777216 * (bytes.getD (4 * i + 3) 0).toNat)

/-! ## The step -/

/-- Derived from 30_encoding.md section 6 (R98): a step of a running core whose `ip` is inside the image and whose words there decode to `i`
is the execution of `i`. -/
def Obligations.StepRunsTheDecodedInstruction : Prop :=
  ∀ (s : State) (i : Instr), s.status = .running → 0 ≤ s.ip → s.ip < s.image.length →
    decode s.cfg.opc (s.image.drop s.ip.toNat) = .ok i → step s = exec i s

/-- Derived from R89 (the negative `ip` is decision D10, log 10): past the image the step only sets the status Halted; at a negative `ip` it
takes the fault OutOfRange. -/
def Obligations.FetchOutsideTheImage : Prop :=
  ∀ s : State, s.status = .running →
    ((s.image.length : Int) ≤ s.ip → step s = .next { s with status := .halted }) ∧
    (s.ip < 0 → step s = .next { s with status := .faulted .outOfRange })

/-- R88: the opcode word at `ip` names the mnemonic whose opcode number its bits 7..0 are, and where there is none the step takes the fault
InvalidProgram. -/
def Obligations.UnknownOpcodeIsInvalidProgram : Prop :=
  ∀ (s : State) (w : Word), s.status = .running → 0 ≤ s.ip → s.image[s.ip.toNat]? = some w →
    ((∀ m, s.cfg.opc.of m ≠ w.extractLsb' 0 8) → step s = .next { s with status := .faulted .invalidProgram }) ∧
    (∀ m, s.cfg.opc.Injective → s.cfg.opc.of m = w.extractLsb' 0 8 → ∀ i, fetch s = .ok i → i.mnemonic = m)

/-- Derived from R90 (decision D11, log 11): an image that ends inside the instruction takes the fault InvalidProgram with nothing resolved. -/
def Obligations.TruncatedInstructionIsInvalidProgram : Prop :=
  ∀ (s : State) (w : Word) (m : Mnemonic), s.status = .running → 0 ≤ s.ip → s.image[s.ip.toNat]? = some w →
    lookupMnemonic s.cfg.opc (opField w) = some m → (s.image.length : Int) ≤ s.ip + m.arity →
    step s = .next { s with status := .faulted .invalidProgram }

/-- The model's choice (log 31), after 10_state.md R38 and 60_exceptions.md R252, which say only that no further step is taken: what a step
asked of a stopped core answers. -/
def Obligations.StoppedCoreTakesNoStep : Prop :=
  ∀ s : State, (s.status = .halted → step s = .next s) ∧ (∀ f, s.status = .faulted f → step s = .fault f) ∧
    (∀ r, s.status = .refused r → step s = .refused (.stopped r))

/-- Derived from 60_exceptions.md section 4 (R265, R267, R290; the host interface is decision D27, log 27): what `run` returns is the state
after stepping until the status is not Running. A core that is not Running is returned as it is; from a running core the step comes
first; what is returned is not Running, and there is at most one such state; where there is none the run goes on forever, and only then.
A host that stops after n steps has a state from which the same run goes on. -/
def Obligations.RunStepsUntilNotRunning : Prop :=
  (∀ s t : State, s.status ≠ .running → (Run s t ↔ t = s)) ∧
  (∀ s : State, s.status = .running → ∃ u, step s = .next u ∧ (∀ t, Run s t ↔ Run u t) ∧ (RunsForever s ↔ RunsForever u)) ∧
  (∀ s t : State, Run s t → t.status ≠ .running ∧ ∀ u, Run s u → u = t) ∧
  (∀ s : State, RunsForever s ↔ ∀ t, ¬ Run s t) ∧
  (∀ (s t : State) (n : Nat), Run s t ↔ Run (runFor n s) t)

/-! ## The whole machine -/

/-- Derived from 10_state.md R20, R21, R33 and 20_memory.md R56: every step keeps the invariant (a legal configuration, the machine image in
canonical form and inside 0..LAST, `esp` in FLOOR-1..LAST, or LAST+1 in the state a `pop` or `ret` of an empty stack leaves). -/
def Obligations.StepKeepsInvariant : Prop :=
  ∀ s t : State, s.Inv → step s = .next t → t.Inv

/-- Derived from 10_state.md R22 and 41_arithmetic.md R152 (decision D4, log 5): in a finite realisation a step that does not fault keeps
every stored value inside the bound. -/
def Obligations.StepKeepsCellBound : Prop :=
  ∀ s t : State, s.WithinBound → step s = .next t → (∀ f, t.status ≠ .faulted f) → t.WithinBound

/-- R40: no step writes the program image; nor the configuration. -/
def Obligations.ProgramImageIsNeverWritten : Prop :=
  ∀ s t : State, step s = .next t → t.image = s.image ∧ t.cfg = s.cfg

/-- R39: the output stream is empty at construction; a step leaves it as it is, unless it runs a `prn`; every execution of a `prn` that
completes appends one value, its operand's; and no instruction reads the stream: with another output before, the same state comes out, with
that output extended. -/
def Obligations.OnlyPrnExtendsOutput : Prop :=
  (∀ c p, (State.initial c p).output = []) ∧
  (∀ s t : State, step s = .next t → t.output = s.output ∨
    ∃ dest v, fetch s = .ok (.prn dest) ∧ resolve s dest = some v ∧ t.output = s.output ++ [v]) ∧
  (∀ (s t : State) (dest : Operand), exec (.prn dest) s = .next t → t.ops = s.ops + 1 →
    ∃ v, resolve s dest = some v ∧ t.output = s.output ++ [v]) ∧
  (∀ (i : Instr) (s t : State) (out : List Int), exec i s = .next t →
    ∃ more, t.output = s.output ++ more ∧ exec i { s with output := out } = .next { t with output := out ++ more })

/-- Derived from R37, R97 (decision D24, log 24): a running step adds one to the operation counter exactly when it completes an instruction,
that is when the core is still Running after it. -/
def Obligations.CounterCountsCompletedInstructions : Prop :=
  ∀ s t : State, s.status = .running → step s = .next t →
    (t.status = .running ∧ t.ops = s.ops + 1) ∨ (t.status ≠ .running ∧ t.ops = s.ops)

/-- R99: no instruction halts the core. A running core halts only in a step that begins with `ip` at or past the length of the image, and
such a step does nothing else. -/
def Obligations.OnlyTheEndOfTheImageHalts : Prop :=
  (∀ (i : Instr) (s t : State), s.status = .running → exec i s = .next t → t.status ≠ .halted) ∧
  (∀ s t : State, s.status = .running → step s = .next t →
    (t.status = .halted ↔ (s.image.length : Int) ≤ s.ip) ∧ (t.status = .halted → t = { s with status := .halted }))

/-- R34: the stack depth is `LAST - esp`, 0 at construction; each `push` or `call` that completes raises it by one, each `pop` or `ret`
lowers it by one, and no other instruction changes it. -/
def Obligations.StackDepthCountsPushes : Prop :=
  (∀ s : State, s.depth = lastCell s.cfg - s.esp) ∧ (∀ c p, (State.initial c p).depth = 0) ∧
  (∀ (i : Instr) (s t : State), exec i s = .next t → t.ops = s.ops + 1 →
    (((∃ dest, i = .push dest) ∨ ∃ dest, i = .call dest) ∧ t.depth = s.depth + 1) ∨
    (((∃ dest, i = .pop dest) ∨ i = .ret) ∧ t.depth = s.depth - 1) ∨
    ((∀ dest, i ≠ .push dest ∧ i ≠ .call dest ∧ i ≠ .pop dest) ∧ i ≠ .ret ∧ t.depth = s.depth))

/-- Derived from R251, R253 (decision D23, log 23): a step that faults changes nothing but the status, and `esp` by one where it runs a
`pop` or `ret` of an empty stack or a `pop` whose write-back is out of range. In particular `ip` keeps the address of the faulting
instruction. -/
def Obligations.FaultLeavesOnlyStatusAndEsp : Prop :=
  ∀ (s t : State) (f : Fault), s.Inv → s.status = .running → step s = .next t → t.status = .faulted f →
    t = { s with status := .faulted f } ∨
    (t = { s with status := .faulted f, esp := s.esp + 1 } ∧
      ∃ i, fetch s = .ok i ∧ (((∃ dest, i = .pop dest) ∨ i = .ret) ∧ f = .invalidStack ∨ (∃ dest, i = .pop dest) ∧ f = .outOfRange))

/-- Derived from R254 (decisions D4 and D7, log 5 and 8): a refused step writes nothing but the status; without `CELL_BOUND` only a shift by
a negative count is refused. -/
def Obligations.RefusedStepWritesNothing : Prop :=
  ∀ (s t : State) (r : RefusalReason), s.status = .running → step s = .next t → t.status = .refused r →
    t = { s with status := .refused r } ∧
    (s.cfg.cellBound = none → r = .negativeShift ∧ ∃ dest src v, resolve s src = some v ∧ v < 0 ∧
      (fetch s = .ok (.shl dest src) ∨ fetch s = .ok (.shr dest src)))

/-- Derived from R250 (OutOfRange is decision D9, log 10): which instructions can take each fault, and on what condition. `InvalidProgram`
comes from no instruction, only from decode. OutOfRange comes, in a state with the invariant, from an addressed operand or a write-back
destination past LAST. -/
def Obligations.FaultCauses : Prop :=
  ∀ (i : Instr) (s t : State) (f : Fault), s.status = .running → exec i s = .next t → t.status = .faulted f →
    f ≠ .invalidProgram ∧
    (f = .invalidStack → ((∃ dest, i = .pop dest) ∨ i = .ret) ∧ lastCell s.cfg < s.esp + 1) ∧
    (f = .stackOverflow → ((∃ dest, i = .push dest) ∨ ∃ dest, i = .call dest) ∧ s.esp < stackFloor s.cfg) ∧
    (f = .divideByZero → ∃ dest src, (i = .div dest src ∨ i = .mod dest src) ∧ resolve s src = some 0) ∧
    (f = .outOfRange → s.Inv → ∃ o : Operand, lastCell s.cfg < o.word.toNat ∧
      ((o.addressed = true ∧ (i.dest? = some o ∨ i.src? = some o)) ∨ (i.mnemonic.writesDest = true ∧ i.dest? = some o)))

/-- Derived from 10_state.md R23, R27, R29, R31 and 30_encoding.md R76, R95: the frame of every instruction. A cell other than `ip` changes
only where the instruction writes its destination back, `mod` writes cell 7, `cmp` writes cell 8, or `push` and `call` write the cell at
`esp`; and only `push`, `call`, `pop` and `ret` change `esp`, by one. -/
def Obligations.FrameOfEveryInstruction : Prop :=
  ∀ (i : Instr) (s t : State), exec i s = .next t →
    (∀ a, a ≠ 6 → t.cell a ≠ s.cell a →
      (i.mnemonic.writesDest = true ∧ ∃ dest, i.dest? = some dest ∧ a = dest.word.toNat) ∨
      ((∃ dest src, i = .mod dest src) ∧ a = 7) ∨ ((∃ dest src, i = .cmp dest src) ∧ a = 8) ∨
      (((∃ dest, i = .push dest) ∨ ∃ dest, i = .call dest) ∧ (a : Int) = s.esp)) ∧
    (t.esp = s.esp ∨
      (((∃ dest, i = .push dest) ∨ ∃ dest, i = .call dest) ∧ t.esp = s.esp - 1) ∨
      (((∃ dest, i = .pop dest) ∨ i = .ret) ∧ t.esp = s.esp + 1))

/-- Derived from 10_state.md R29, in its sense of `90_conflicts.md` C2 and C3 (unbounded integers are decision D4, truncation D5, the
counts of shifts D7, two's complement D8, log 4, 6, 8 and 9): only `cmp` writes FLAGS as a computed result, and then leaves the overflow
flag clear; any other change of FLAGS is the data write of a write-back to cell 8. Each of the fifteen instructions that write back
stores its whole result there, OF among its bits. -/
def Obligations.OnlyCmpComputesFlags : Prop :=
  (∀ (i : Instr) (s t : State), s.cfg.Legal → exec i s = .next t → t.flags ≠ s.flags →
    ((∃ dest src, i = .cmp dest src) ∧ (t.flags = 0 ∨ t.flags = 1 ∨ t.flags = 2) ∧ t.of = false) ∨
    (i.mnemonic.writesDest = true ∧ ∃ dest, i.dest? = some dest ∧ dest.word.toNat = 8)) ∧
  (∀ (s : State) (dest src : Operand) (d v : Int), resolve s dest = some d → resolve s src = some v → dest.word.toNat = 8 →
    StoresInFlags (.mov dest src) s dest 3 v ∧ StoresInFlags (.add dest src) s dest 3 (d + v) ∧
    StoresInFlags (.sub dest src) s dest 3 (d - v) ∧ StoresInFlags (.mul dest src) s dest 3 (d * v) ∧
    (v ≠ 0 → StoresInFlags (.div dest src) s dest 3 (Int.tdiv d v)) ∧
    (∃ z, (∀ k, bit z k = (bit d k && bit v k)) ∧ StoresInFlags (.and dest src) s dest 3 z) ∧
    (∃ z, (∀ k, bit z k = (bit d k || bit v k)) ∧ StoresInFlags (.or dest src) s dest 3 z) ∧
    (∃ z, (∀ k, bit z k = (bit d k ^^ bit v k)) ∧ StoresInFlags (.xor dest src) s dest 3 z) ∧
    (∀ n : Nat, v = n → StoresInFlags (.shl dest src) s dest 3 (d * 2 ^ n) ∧
      StoresInFlags (.shr dest src) s dest 3 (Int.fdiv d (2 ^ n)))) ∧
  (∀ (s : State) (dest : Operand) (d : Int), resolve s dest = some d → dest.word.toNat = 8 →
    StoresInFlags (.inc dest) s dest 2 (d + 1) ∧ StoresInFlags (.dec dest) s dest 2 (d - 1) ∧
    StoresInFlags (.not dest) s dest 2 (-d - 1) ∧ StoresInFlags (.rem dest) s dest 2 (s.cell 7) ∧
    (0 ≤ s.esp + 1 → s.esp + 1 ≤ lastCell s.cfg → fits s.cfg (s.esp + 1) = true →
      StoresInFlags (.pop dest) s dest 2 (s.cell (s.esp + 1).toNat)))

/-- Derived from 41_arithmetic.md R152 and 10_state.md R22 (decision D4, log 5): a finite realisation either refuses the step with nothing
written or does exactly what the unbounded core does; it never wraps. -/
def Obligations.BoundedCoreAgreesOrRefuses : Prop :=
  ∀ (i : Instr) (s : State) (b : CellBound), s.cfg.cellBound = none →
    let sb : State := { s with cfg := { s.cfg with cellBound := some b } }
    exec i sb = .next { sb with status := .refused .cellBound } ∨
    ∃ t, exec i s = .next t ∧ exec i sb = .next { t with cfg := sb.cfg }

/-! ## Operands and their faults -/

/-- Derived from 30_encoding.md section 5 (R92, R93; OutOfRange is decision D9, that every destination is resolved D12, log 10 and 12): the
value of an operand, and the fault of every instruction that has an addressed operand outside 0..LAST; the destination comes first. -/
def Obligations.OperandValuesAndTheirFault : Prop :=
  (∀ (s : State) (o : Operand),
    (o.addressed = false → resolve s o = some (o.word.toNat : Int)) ∧
    (o.addressed = true → (o.word.toNat : Int) ≤ lastCell s.cfg → resolve s o = some (s.cell o.word.toNat)) ∧
    (o.addressed = true → lastCell s.cfg < o.word.toNat → resolve s o = none)) ∧
  (∀ (i : Instr) (s : State) (dest : Operand), i.dest? = some dest → dest.addressed = true → lastCell s.cfg < dest.word.toNat →
    Faults i s .outOfRange) ∧
  (∀ (i : Instr) (s : State) (dest src : Operand) (d : Int), i.dest? = some dest → i.src? = some src → resolve s dest = some d →
    src.addressed = true → lastCell s.cfg < src.word.toNat → Faults i s .outOfRange)

/-- Derived from 30_encoding.md section 6 (R95; OutOfRange is decision D9, log 10) and 60_exceptions.md R253: a write-back to a direct
destination outside 0..LAST faults with nothing written; that of `pop` after `esp` went up, which stays. -/
def Obligations.WriteBackOutsideTheImageFaults : Prop :=
  ∀ (s : State) (dest src : Operand) (v : Int), dest.addressed = false → lastCell s.cfg < dest.word.toNat →
    (resolve s src = some v → Faults (.mov dest src) s .outOfRange ∧ Faults (.add dest src) s .outOfRange ∧
      Faults (.sub dest src) s .outOfRange ∧ Faults (.mul dest src) s .outOfRange ∧ Faults (.and dest src) s .outOfRange ∧
      Faults (.or dest src) s .outOfRange ∧ Faults (.xor dest src) s .outOfRange ∧
      (v ≠ 0 → Faults (.div dest src) s .outOfRange) ∧
      (0 ≤ v → Faults (.shl dest src) s .outOfRange ∧ Faults (.shr dest src) s .outOfRange)) ∧
    Faults (.inc dest) s .outOfRange ∧ Faults (.dec dest) s .outOfRange ∧ Faults (.not dest) s .outOfRange ∧
    Faults (.rem dest) s .outOfRange ∧
    (0 ≤ s.esp + 1 → s.esp + 1 ≤ lastCell s.cfg →
      exec (.pop dest) s = .next { s with status := .faulted .outOfRange, esp := s.esp + 1 })

/-! ## Results, instruction by instruction -/

/-- Derived from 40_data_move.md R130 (a write-back to cell 6 is decision D13, log 13): `mov` writes the source value to the destination
cell, also for a direct destination, and changes nothing else. -/
def Obligations.MovCopiesTheSource : Prop :=
  ∀ (s : State) (dest src : Operand) (d v : Int), resolve s dest = some d → resolve s src = some v →
    CanWriteBack s dest 3 v → WritesBack (.mov dest src) s dest 3 v

/-- Derived from 41_arithmetic.md section 2, add, sub and mul (unbounded integers are decision D4, a write-back to cell 6 D13, log 4 and
13): the exact sum, difference and product. -/
def Obligations.AddSubMulAreExact : Prop :=
  ∀ (s : State) (dest src : Operand) (d v : Int), resolve s dest = some d → resolve s src = some v →
    (CanWriteBack s dest 3 (d + v) → WritesBack (.add dest src) s dest 3 (d + v)) ∧
    (CanWriteBack s dest 3 (d - v) → WritesBack (.sub dest src) s dest 3 (d - v)) ∧
    (CanWriteBack s dest 3 (d * v) → WritesBack (.mul dest src) s dest 3 (d * v))

/-- Derived from 41_arithmetic.md section 2, div, and R151 (truncation is decision D5, that REM is not written D6, a write-back to cell 6
D13, log 6, 7 and 13): the quotient q of d = v*q + r with r smaller than v and zero or of the sign of d; a zero divisor takes the fault
DivideByZero with nothing written. -/
def Obligations.DivTruncatesTowardZero : Prop :=
  ∀ (s : State) (dest src : Operand) (d v : Int), resolve s dest = some d → resolve s src = some v →
    (v = 0 → Faults (.div dest src) s .divideByZero) ∧
    (v ≠ 0 → ∃ q r, d = v * q + r ∧ |r| < |v| ∧ (0 < r → 0 < d) ∧ (r < 0 → d < 0) ∧
      (CanWriteBack s dest 3 q → WritesBack (.div dest src) s dest 3 q))

/-- Derived from 41_arithmetic.md section 2, and, or and xor (two's complement is decision D8, a write-back to cell 6 D13, log 9 and 13):
the integer whose every bit is the operation on the bits of the operands is written back. -/
def Obligations.AndOrXorAreBitwise : Prop :=
  ∀ (s : State) (dest src : Operand) (d v : Int), resolve s dest = some d → resolve s src = some v →
    (∃ z, (∀ k, bit z k = (bit d k && bit v k)) ∧ (CanWriteBack s dest 3 z → WritesBack (.and dest src) s dest 3 z)) ∧
    (∃ z, (∀ k, bit z k = (bit d k || bit v k)) ∧ (CanWriteBack s dest 3 z → WritesBack (.or dest src) s dest 3 z)) ∧
    (∃ z, (∀ k, bit z k = (bit d k ^^ bit v k)) ∧ (CanWriteBack s dest 3 z → WritesBack (.xor dest src) s dest 3 z))

/-- Derived from 41_arithmetic.md section 2, shl and shr (the counts are decision D7, a write-back to cell 6 D13, log 8 and 13): the exact
product by 2^n and the quotient by 2^n rounded down, for every count n; a negative count is refused with nothing written. -/
def Obligations.ShiftsAreExact : Prop :=
  ∀ (s : State) (dest src : Operand) (d v : Int), resolve s dest = some d → resolve s src = some v →
    (∀ n : Nat, v = n → CanWriteBack s dest 3 (d * 2 ^ n) → WritesBack (.shl dest src) s dest 3 (d * 2 ^ n)) ∧
    (∀ n : Nat, v = n → ∃ q, q * 2 ^ n ≤ d ∧ d < (q + 1) * 2 ^ n ∧
      (CanWriteBack s dest 3 q → WritesBack (.shr dest src) s dest 3 q)) ∧
    (v < 0 → exec (.shl dest src) s = .next { s with status := .refused .negativeShift } ∧
      exec (.shr dest src) s = .next { s with status := .refused .negativeShift })

/-- Derived from 42_unary.md R171, R172, R173 (two's complement is decision D8, a write-back to cell 6 D13, log 9 and 13): `inc` and `dec`
exactly, and `not` the integer whose every bit is the opposite of the operand's, which is -d-1. -/
def Obligations.IncDecNotResults : Prop :=
  ∀ (s : State) (dest : Operand) (d : Int), resolve s dest = some d →
    (CanWriteBack s dest 2 (d + 1) → WritesBack (.inc dest) s dest 2 (d + 1)) ∧
    (CanWriteBack s dest 2 (d - 1) → WritesBack (.dec dest) s dest 2 (d - 1)) ∧
    (CanWriteBack s dest 2 (-d - 1) → WritesBack (.not dest) s dest 2 (-d - 1)) ∧
    (∀ k, bit (-d - 1) k = !bit d k)

/-- R181: after `mod` of d by a divisor v that is not 0, the remainder register holds an r that is zero or of the sign of d, with d = v *
tdiv(d, v) + r, smaller than v; the destination and all else are as before, `ip` is past the instruction. -/
def Obligations.ModRemainderHasSignOfDividend : Prop :=
  ∀ (s : State) (dest src : Operand) (d v : Int), resolve s dest = some d → resolve s src = some v → v ≠ 0 →
    fits s.cfg (d - v * Int.tdiv d v) = true → fits s.cfg (s.ip + 3) = true →
    ∃ r, Retires (.mod dest src) s (s.ip + 3) (cellsWith s 7 r) s.esp s.output ∧
      d = v * Int.tdiv d v + r ∧ |r| < |v| ∧ (r = 0 ∨ (0 < r ↔ 0 < d))

/-- Derived from 43_modulo.md R180 (C5: modulo by zero faults too): a zero divisor takes the fault DivideByZero with nothing written, REM
and `ip` among it. -/
def Obligations.ModByZeroFaults : Prop :=
  ∀ (s : State) (dest src : Operand) (d : Int), resolve s dest = some d → resolve s src = some 0 →
    Faults (.mod dest src) s .divideByZero

/-- Derived from 43_modulo.md R182 (a write-back to cell 6 is decision D13, log 13): `rem` writes the remainder register back and does not
clear it. -/
def Obligations.RemFetchesTheRemainder : Prop :=
  ∀ (s : State) (dest : Operand) (d : Int), resolve s dest = some d → CanWriteBack s dest 2 (s.cell 7) →
    WritesBack (.rem dest) s dest 2 (s.cell 7)

/-- Derived from 44_compare.md R190, R191 (unbounded integers are decision D4, log 4): `cmp` writes the whole of FLAGS, 1 when d = v, 2 when
d < v, 0 when d > v, and no operand. -/
def Obligations.CmpSetsFlags : Prop :=
  ∀ (s : State) (dest src : Operand) (d v : Int), resolve s dest = some d → resolve s src = some v →
    fits s.cfg 0 = true → fits s.cfg 1 = true → fits s.cfg 2 = true → fits s.cfg (s.ip + 3) = true →
    Retires (.cmp dest src) s (s.ip + 3) (cellsWith s 8 (if d = v then 1 else if d < v then 2 else 0)) s.esp s.output

/-- R208: the target of every taken jump is the new value of cell 6, whatever it is, and nothing else changes but the operation counter. -/
def Obligations.JumpTargetIsTheNewIp : Prop :=
  ∀ (s : State) (dest : Operand) (d : Int), resolve s dest = some d → fits s.cfg d = true →
    Retires (.jmp dest) s d s.cell s.esp s.output ∧
    (s.zf = true → Retires (.je dest) s d s.cell s.esp s.output) ∧
    (s.zf = false → Retires (.jne dest) s d s.cell s.esp s.output) ∧
    (s.sf ≠ s.of → Retires (.jl dest) s d s.cell s.esp s.output) ∧
    (s.zf = true ∨ s.sf ≠ s.of → Retires (.jle dest) s d s.cell s.esp s.output) ∧
    (s.zf = false ∧ s.sf = s.of → Retires (.jg dest) s d s.cell s.esp s.output) ∧
    (s.sf = s.of → Retires (.jge dest) s d s.cell s.esp s.output)

/-- Derived from 45_jumps.md R202 to R207: a conditional jump whose condition does not hold advances past its two words and changes nothing
else but the operation counter. -/
def Obligations.UntakenJumpAdvances : Prop :=
  ∀ (s : State) (dest : Operand) (d : Int), resolve s dest = some d → fits s.cfg (s.ip + 2) = true →
    (s.zf = false → Retires (.je dest) s (s.ip + 2) s.cell s.esp s.output) ∧
    (s.zf = true → Retires (.jne dest) s (s.ip + 2) s.cell s.esp s.output) ∧
    (s.sf = s.of → Retires (.jl dest) s (s.ip + 2) s.cell s.esp s.output) ∧
    (s.zf = false ∧ s.sf = s.of → Retires (.jle dest) s (s.ip + 2) s.cell s.esp s.output) ∧
    (s.zf = true ∨ s.sf ≠ s.of → Retires (.jg dest) s (s.ip + 2) s.cell s.esp s.output) ∧
    (s.sf ≠ s.of → Retires (.jge dest) s (s.ip + 2) s.cell s.esp s.output)

/-- R201: the conditions of the conditional jumps. By the flags' bits: je zf, jne not zf, jl sf ≠ of, jle zf or sf ≠ of, jg not zf and sf =
of, jge sf = of; each jump goes to its target when its condition holds as the jump executes, else past its two words. After the `cmp` of d
and v they are the comparisons of the integers. With FLAGS = 4 (OF set by a data write) `jl` is taken and `jge` is not. -/
def Obligations.ConditionsOfTheJumps : Prop :=
  (∀ s : State, let zf := bit s.flags 0; let sf := bit s.flags 1; let of := bit s.flags 2
    condE s = zf ∧ condNe s = !zf ∧ condL s = (sf ^^ of) ∧ condLe s = (zf || (sf ^^ of)) ∧
    condG s = (!zf && !(sf ^^ of)) ∧ condGe s = !(sf ^^ of)) ∧
  (∀ (s : State) (dest : Operand) (d : Int), resolve s dest = some d → fits s.cfg d = true → fits s.cfg (s.ip + 2) = true →
    Retires (.je dest) s (if condE s then d else s.ip + 2) s.cell s.esp s.output ∧
    Retires (.jne dest) s (if condNe s then d else s.ip + 2) s.cell s.esp s.output ∧
    Retires (.jl dest) s (if condL s then d else s.ip + 2) s.cell s.esp s.output ∧
    Retires (.jle dest) s (if condLe s then d else s.ip + 2) s.cell s.esp s.output ∧
    Retires (.jg dest) s (if condG s then d else s.ip + 2) s.cell s.esp s.output ∧
    Retires (.jge dest) s (if condGe s then d else s.ip + 2) s.cell s.esp s.output) ∧
  (∀ (s t : State) (dest src : Operand) (d v : Int), resolve s dest = some d → resolve s src = some v →
    exec (.cmp dest src) s = .next t → t.ops = s.ops + 1 →
    condE t = decide (d = v) ∧ condNe t = decide (d ≠ v) ∧ condL t = decide (d < v) ∧ condLe t = decide (d ≤ v) ∧
    condG t = decide (v < d) ∧ condGe t = decide (v ≤ d)) ∧
  (∀ s : State,
    (s.flags = 0 → condE s = false ∧ condNe s = true ∧ condL s = false ∧ condLe s = false ∧ condG s = true ∧ condGe s = true) ∧
    (s.flags = 1 → condE s = true ∧ condNe s = false ∧ condL s = false ∧ condLe s = true ∧ condG s = false ∧ condGe s = true) ∧
    (s.flags = 2 → condE s = false ∧ condNe s = true ∧ condL s = true ∧ condLe s = true ∧ condG s = false ∧ condGe s = false) ∧
    (s.flags = 4 → condL s = true ∧ condGe s = false))

/-- Derived from 46_stack.md R220: `push` below the floor takes the fault StackOverflow with nothing written; else it stores d in the cell
at `esp` and takes `esp` down by one. -/
def Obligations.PushStoresAndDecrements : Prop :=
  ∀ (s : State) (dest : Operand) (d : Int), s.cfg.Legal → resolve s dest = some d →
    (s.esp < stackFloor s.cfg → Faults (.push dest) s .stackOverflow) ∧
    (stackFloor s.cfg ≤ s.esp → s.esp ≤ lastCell s.cfg →
      fits s.cfg d = true → fits s.cfg (s.esp - 1) = true → fits s.cfg (s.ip + 2) = true →
      Retires (.push dest) s (s.ip + 2) (cellsWith s s.esp.toNat d) (s.esp - 1) s.output)

/-- Derived from 46_stack.md R222, R223 (a write-back to cell 6 is decision D13, log 13): `pop` of an empty stack takes the fault
InvalidStack and leaves `esp` one up; else it writes the top of the stack back, which stays in its cell, and takes `esp` up by one. -/
def Obligations.PopLoadsAndIncrements : Prop :=
  ∀ (s : State) (dest : Operand) (d : Int), resolve s dest = some d →
    (lastCell s.cfg < s.esp + 1 →
      exec (.pop dest) s = .next { s with status := .faulted .invalidStack, esp := s.esp + 1 }) ∧
    (0 ≤ s.esp + 1 → s.esp + 1 ≤ lastCell s.cfg → fits s.cfg (s.esp + 1) = true →
      CanWriteBack s dest 2 (s.cell (s.esp + 1).toNat) →
      Retires (.pop dest) s (ipAfterWriteBack s dest 2 (s.cell (s.esp + 1).toNat))
        (cellsWith s dest.word.toNat (s.cell (s.esp + 1).toNat)) (s.esp + 1) s.output)

/-- R231, with R230: `call` pushes the index of the word after it, whatever the kind of its target, and jumps to the target as it was before
the push; below the floor it takes the fault StackOverflow with nothing written. -/
def Obligations.CallPushesReturnAddress : Prop :=
  ∀ (s : State) (dest : Operand) (d : Int), s.cfg.Legal → resolve s dest = some d →
    (s.esp < stackFloor s.cfg → Faults (.call dest) s .stackOverflow) ∧
    (stackFloor s.cfg ≤ s.esp → s.esp ≤ lastCell s.cfg →
      fits s.cfg d = true → fits s.cfg (s.esp - 1) = true → fits s.cfg (s.ip + 2) = true →
      Retires (.call dest) s d (cellsWith s s.esp.toNat (s.ip + 2)) (s.esp - 1) s.output)

/-- R232: `ret` of an empty stack takes the fault InvalidStack and leaves `esp` one up; else the top of the stack is the new `ip`, with no
advance. -/
def Obligations.RetPopsIntoIp : Prop :=
  ∀ s : State,
    (lastCell s.cfg < s.esp + 1 → exec .ret s = .next { s with status := .faulted .invalidStack, esp := s.esp + 1 }) ∧
    (0 ≤ s.esp + 1 → s.esp + 1 ≤ lastCell s.cfg → fits s.cfg (s.esp + 1) = true →
      fits s.cfg (s.cell (s.esp + 1).toNat) = true →
      Retires .ret s (s.cell (s.esp + 1).toNat) s.cell (s.esp + 1) s.output)

/-- R240: `nop` advances past its one word, counts as an operation, and changes nothing else. -/
def Obligations.NopOnlyAdvances : Prop :=
  ∀ s : State, fits s.cfg (s.ip + 1) = true → Retires .nop s (s.ip + 1) s.cell s.esp s.output

/-- Derived from 48_nop_prn.md R241, R242 (the text of an entry is decision D25 and outside the core, log 25): `prn` appends its operand's
value to the output, advances, and changes nothing else. -/
def Obligations.PrnEmitsItsOperand : Prop :=
  ∀ (s : State) (dest : Operand) (d : Int), resolve s dest = some d → fits s.cfg d = true → fits s.cfg (s.ip + 2) = true →
    Retires (.prn dest) s (s.ip + 2) s.cell s.esp (s.output ++ [d])

/-! ## The stack as a stack -/

/-- Derived from 46_stack.md and 47_call_ret.md (a `pop` to cell 6, which leaves `ip` two past the popped value, is decision D13, log 13):
what was pushed is popped, and a call is returned from to the word after it; `esp` is as before. -/
def Obligations.StackReturnsWhatWasPushed : Prop :=
  ∀ (s : State) (o dest : Operand) (d : Int), s.cfg.Legal → s.cfg.cellBound = none →
    stackFloor s.cfg ≤ s.esp → s.esp ≤ lastCell s.cfg → resolve s o = some d → (dest.word.toNat : Int) ≤ lastCell s.cfg →
    (∃ t u, exec (.push o) s = .next t ∧ exec (.pop dest) t = .next u ∧ u.esp = s.esp ∧ u.ops = s.ops + 2 ∧
      (dest.word.toNat ≠ 6 → u.cell dest.word.toNat = d ∧ u.ip = s.ip + 4) ∧ (dest.word.toNat = 6 → u.ip = d + 2)) ∧
    (∃ t u, exec (.call o) s = .next t ∧ t.ip = d ∧ exec .ret t = .next u ∧ u.ip = s.ip + 2 ∧ u.esp = s.esp ∧ u.ops = s.ops + 2)

/-- Derived from 46_stack.md R221 (by the spec from R220): from an empty stack STACK_SIZE + 1 pushes succeed, each raising the depth by one,
and the next takes the fault StackOverflow. -/
def Obligations.StackHoldsStackSizePlusOne : Prop :=
  ∀ (s : State) (w : Word), s.cfg.Legal → s.cfg.cellBound = none → s.depth = 0 →
    (∀ k, k ≤ s.cfg.stackSize + 1 → ∃ t, execTimes (.push ⟨false, w⟩) k s = some t ∧ t.depth = k) ∧
    (∀ t, execTimes (.push ⟨false, w⟩) (s.cfg.stackSize + 1) s = some t → Faults (.push ⟨false, w⟩) t .stackOverflow)

/-! ## The linker engine -/

/-- R123: in the image of a successful link, at the word offset of every node (the implicit `jmp start` among them), the decoder gives back
the node's mnemonic and the kinds of its operands, and bits 8 to 11 of the opcode word there reflect the operand kinds given; the image has
no other words. -/
def Obligations.LinkedNodesDecodeBack : Prop :=
  ∀ (o : OpcMap) (nodes : List Node) (ws : List Word), o.Injective → linkWords o nodes = .ok ws →
    ws.length = wordCount (withStart nodes) ∧
    ∀ pre n post, withStart nodes = pre ++ n :: post → ∃ i, decode o (ws.drop (wordCount pre)) = .ok i ∧
      mnemonicName i.mnemonic = n.mnemonic ∧ i.len = 1 + n.operands.length ∧
      i.dest?.map (·.addressed) = n.operands[0]?.map (·.isAddressed) ∧
      i.src?.map (·.addressed) = n.operands[1]?.map (·.isAddressed) ∧
      ∃ w, ws[wordCount pre]? = some w ∧
        (∀ op, n.operands[0]? = some op → w.getLsbD 10 = op.isAddressed ∧ w.getLsbD 11 = !op.isAddressed) ∧
        (∀ op, n.operands[1]? = some op → w.getLsbD 8 = op.isAddressed ∧ w.getLsbD 9 = !op.isAddressed)

/-- Derived from 30_encoding.md sections 4, 7 and 8 (R81, R113, R118, R120; that the last definition of a label counts is decision D14,
the register names and their cells D2, log 14 and 2): the operand words of the image of a successful link. A label's word is the word
offset of the last node that defines it; every other operand's word is its register's cell, its address or its value; and the registers
are these six. -/
def Obligations.LinkedOperandWords : Prop :=
  (∀ (name : String) (c : Nat), registerCell name = some c ↔
    (name, c) ∈ [("eax", 0), ("ebx", 1), ("ecx", 2), ("edx", 3), ("esi", 4), ("edi", 5)]) ∧
  (∀ (o : OpcMap) (nodes : List Node) (ws : List Word), linkWords o nodes = .ok ws →
    ∀ pre n post k op, withStart nodes = pre ++ n :: post → n.operands[k]? = some op →
      (∀ l, op = .labelRef l → ∃ pre' n' post', withStart nodes = pre' ++ n' :: post' ∧ n'.label = some l ∧
        ¬ DefinesLabel post' l ∧ (ws[wordCount pre + 1 + k]?).map (·.toNat) = some (wordCount pre')) ∧
      (∀ v, op = .literal v ∨ op = .memoryOffset v → (ws[wordCount pre + 1 + k]?).map (fun w => (w.toNat : Int)) = some v) ∧
      (∀ name, op = .register name → (ws[wordCount pre + 1 + k]?).map (·.toNat) = registerCell name))

/-- Derived from 30_encoding.md section 8 (R118, R119, R121; which label is named is decision D29, left open, and the limit of 2^32
words is the model's choice, log 29 and 33): where the first pass accepts every node and some used label is defined nowhere, the link
fails and names such a label; it names a label in no other case; and where it accepts every node, every used label is defined and the
image has at most 2^32 words, the link succeeds, with the little-endian bytes of the words. -/
def Obligations.UndefinedLabelFailsTheLink : Prop :=
  ∀ (o : OpcMap) (nodes : List Node),
    ((∀ n ∈ withStart nodes, n.Accepted) → (∃ l, UsesLabel (withStart nodes) l ∧ ¬ DefinesLabel (withStart nodes) l) →
      ∃ l, linkWords o nodes = .error (.undefinedLabel l)) ∧
    (∀ l, linkWords o nodes = .error (.undefinedLabel l) →
      (∀ n ∈ withStart nodes, n.Accepted) ∧ UsesLabel (withStart nodes) l ∧ ¬ DefinesLabel (withStart nodes) l) ∧
    ((∀ n ∈ withStart nodes, n.Accepted) → (∀ l, UsesLabel (withStart nodes) l → DefinesLabel (withStart nodes) l) →
      wordCount (withStart nodes) ≤ 2 ^ 32 → ∃ ws, linkWords o nodes = .ok ws ∧ link o nodes = .ok (bytesOfWords ws))

/-- Derived from 60_exceptions.md section 2 and 30_encoding.md section 7 (R256, R82, R112, R116; decisions D15, D16, D18, the register
names D2, log 15, 16, 18 and 2): a node breaks the input contract when its operand count is not the arity, a write-back instruction has
a Literal or LabelReference destination, or a register name is none of the six; a node is accepted when its mnemonic is known, it keeps
the contract and its values fit a word; the first node that is not accepted decides the error, and in it the mnemonic comes before the
contract and the contract before the values. -/
def Obligations.FirstOffendingNodeIsReported : Prop :=
  (∀ (m : Mnemonic) (ops : List NodeOperand), contractOk m ops = false ↔ BreaksContract m ops) ∧
  (∀ n : Node, n.Accepted ↔ ∃ m, mnemonicName m = n.mnemonic ∧ ¬ BreaksContract m n.operands ∧
    ∀ v, .literal v ∈ n.operands ∨ .memoryOffset v ∈ n.operands → 0 ≤ v ∧ v < 2 ^ 32) ∧
  (∀ (o : OpcMap) (nodes pre post : List Node) (n : Node), withStart nodes = pre ++ n :: post → (∀ p ∈ pre, p.Accepted) →
    ((∀ m, mnemonicName m ≠ n.mnemonic) → linkWords o nodes = .error .unknownMnemonic) ∧
    (∀ m, mnemonicName m = n.mnemonic → BreaksContract m n.operands → linkWords o nodes = .error .contractViolation) ∧
    (∀ m, mnemonicName m = n.mnemonic → ¬ BreaksContract m n.operands →
      (∃ v, (v < 0 ∨ 2 ^ 32 ≤ v) ∧ (.literal v ∈ n.operands ∨ .memoryOffset v ∈ n.operands)) →
      linkWords o nodes = .error .literalOutOfRange))

/-- Derived from 30_encoding.md section 7 (R110, R111; that the last definition counts is decision D14, log 14): where a node carries
the label `start`, one node `jmp start` without a label is prepended, and the image of a successful link begins with `jmp` to the word
offset of the last such node, two words after where it would be without the jump; where none does, nothing is prepended. -/
def Obligations.StartLabelIsTheEntryPoint : Prop :=
  (∀ nodes : List Node, ¬ DefinesLabel nodes "start" → withStart nodes = nodes) ∧
  (∀ nodes : List Node, DefinesLabel nodes "start" → withStart nodes = ⟨none, "jmp", [.labelRef "start"]⟩ :: nodes) ∧
  (∀ (o : OpcMap) (nodes : List Node) (ws : List Word), o.Injective → linkWords o nodes = .ok ws → DefinesLabel nodes "start" →
    ∃ pre n post w, nodes = pre ++ n :: post ∧ n.label = some "start" ∧ ¬ DefinesLabel post "start" ∧
      decode o ws = .ok (.jmp ⟨false, w⟩) ∧ w.toNat = 2 + wordCount pre)
end

