-- ==== Sys2Proof/Laws/Decode.lean ====
section
/-! SUPPORT. The fields of an encoded opcode word, and the opcode map read backwards (30_encoding.md R70, R77, R88). -/

namespace Sys2Proof

theorem Mnemonic.mem_all (m : Mnemonic) : m ∈ Mnemonic.all := by cases m <;> decide

/-- In a list whose images are pairwise distinct, the search for an image finds its preimage. -/
theorem find?_of_nodup_map {α β : Type} [DecidableEq β] (f : α → β) :
    ∀ {l : List α} {a : α}, (l.map f).Nodup → a ∈ l → l.find? (fun x => f x == f a) = some a
  | b :: l, a, h, ha => by
    rw [List.map_cons, List.nodup_cons] at h
    rcases List.mem_cons.1 ha with rfl | ha
    · simp
    · have hne : f b ≠ f a := fun e => h.1 (e ▸ List.mem_map_of_mem ha)
      rw [List.find?_cons_of_neg (by simpa using hne)]
      exact find?_of_nodup_map f h.2 ha

/-- An injective opcode map is read backwards without loss. -/
theorem lookupMnemonic_of {o : OpcMap} (h : o.Injective) (m : Mnemonic) : lookupMnemonic o (o.of m) = some m :=
  find?_of_nodup_map o.of h m.mem_all

/-- What the opcode map reads backwards is an opcode number of it. -/
theorem of_lookupMnemonic {o : OpcMap} {op : BitVec 8} {m : Mnemonic} (h : lookupMnemonic o op = some m) : o.of m = op := by
  have := List.find?_some h
  simpa using this

theorem opField_opcodeWord (op : BitVec 8) (d s : Option Bool) : opField (opcodeWord op d s) = op := by
  revert op; rcases d with _ | _ | _ <;> rcases s with _ | _ | _ <;> decide

theorem destAddressed_opcodeWord (op : BitVec 8) (d s : Option Bool) :
    destAddressed (opcodeWord op d s) = (d == some true) := by
  revert op; rcases d with _ | _ | _ <;> rcases s with _ | _ | _ <;> decide

theorem srcAddressed_opcodeWord (op : BitVec 8) (d s : Option Bool) :
    srcAddressed (opcodeWord op d s) = (s == some true) := by
  revert op; rcases d with _ | _ | _ <;> rcases s with _ | _ | _ <;> decide

/-- An instruction is built from its mnemonic and its operands. -/
theorem buildInstr_self (i : Instr) (d s : Operand) :
    buildInstr i.mnemonic (i.dest?.getD d) (i.src?.getD s) = i := by cases i <;> rfl

theorem buildInstr_mnemonic (m : Mnemonic) (d s : Operand) : (buildInstr m d s).mnemonic = m := by cases m <;> rfl

/-- No instruction is longer than three words (30_encoding.md R74). -/
theorem Instr.len_le (i : Instr) : i.len ≤ 3 := by
  have : i.mnemonic.arity ≤ 2 := by cases i.mnemonic <;> decide
  simp only [Instr.len]; omega

end Sys2Proof
end

