-- ==== Sys2Proof/Laws/State.lean ====
section
/-! SUPPORT. One lemma per field per named update of the state, true by rfl, and the reads of a cell after each update. -/

namespace Sys2Proof.Machine

variable (s : State)

/-! ### setCell -/

@[simp] theorem State.setCell_cfg (n : Nat) (v : Int) : (s.setCell n v).cfg = s.cfg := rfl
@[simp] theorem State.setCell_image (n : Nat) (v : Int) : (s.setCell n v).image = s.image := rfl
@[simp] theorem State.setCell_mem (n : Nat) (v : Int) : (s.setCell n v).mem = Memory.write s.mem n v := rfl
@[simp] theorem State.setCell_esp (n : Nat) (v : Int) : (s.setCell n v).esp = s.esp := rfl
@[simp] theorem State.setCell_ops (n : Nat) (v : Int) : (s.setCell n v).ops = s.ops := rfl
@[simp] theorem State.setCell_status (n : Nat) (v : Int) : (s.setCell n v).status = s.status := rfl
@[simp] theorem State.setCell_output (n : Nat) (v : Int) : (s.setCell n v).output = s.output := rfl

/-! ### setIp -/

@[simp] theorem State.setIp_cfg (t : Int) : (s.setIp t).cfg = s.cfg := rfl
@[simp] theorem State.setIp_image (t : Int) : (s.setIp t).image = s.image := rfl
@[simp] theorem State.setIp_esp (t : Int) : (s.setIp t).esp = s.esp := rfl
@[simp] theorem State.setIp_ops (t : Int) : (s.setIp t).ops = s.ops := rfl
@[simp] theorem State.setIp_status (t : Int) : (s.setIp t).status = s.status := rfl
@[simp] theorem State.setIp_output (t : Int) : (s.setIp t).output = s.output := rfl

/-! ### advance -/

@[simp] theorem State.advance_cfg (len : Nat) : (s.advance len).cfg = s.cfg := rfl
@[simp] theorem State.advance_image (len : Nat) : (s.advance len).image = s.image := rfl
@[simp] theorem State.advance_esp (len : Nat) : (s.advance len).esp = s.esp := rfl
@[simp] theorem State.advance_ops (len : Nat) : (s.advance len).ops = s.ops := rfl
@[simp] theorem State.advance_status (len : Nat) : (s.advance len).status = s.status := rfl
@[simp] theorem State.advance_output (len : Nat) : (s.advance len).output = s.output := rfl

/-! ### setEsp -/

@[simp] theorem State.setEsp_cfg (v : Int) : (s.setEsp v).cfg = s.cfg := rfl
@[simp] theorem State.setEsp_image (v : Int) : (s.setEsp v).image = s.image := rfl
@[simp] theorem State.setEsp_mem (v : Int) : (s.setEsp v).mem = s.mem := rfl
@[simp] theorem State.setEsp_esp (v : Int) : (s.setEsp v).esp = v := rfl
@[simp] theorem State.setEsp_ops (v : Int) : (s.setEsp v).ops = s.ops := rfl
@[simp] theorem State.setEsp_status (v : Int) : (s.setEsp v).status = s.status := rfl
@[simp] theorem State.setEsp_output (v : Int) : (s.setEsp v).output = s.output := rfl
@[simp] theorem State.setEsp_cell (v : Int) (a : Nat) : (s.setEsp v).cell a = s.cell a := rfl
@[simp] theorem State.setEsp_ip (v : Int) : (s.setEsp v).ip = s.ip := rfl
@[simp] theorem State.setEsp_remainder (v : Int) : (s.setEsp v).remainder = s.remainder := rfl
@[simp] theorem State.setEsp_flags (v : Int) : (s.setEsp v).flags = s.flags := rfl

/-! ### setStatus -/

@[simp] theorem State.setStatus_cfg (st : Status) : (s.setStatus st).cfg = s.cfg := rfl
@[simp] theorem State.setStatus_image (st : Status) : (s.setStatus st).image = s.image := rfl
@[simp] theorem State.setStatus_mem (st : Status) : (s.setStatus st).mem = s.mem := rfl
@[simp] theorem State.setStatus_esp (st : Status) : (s.setStatus st).esp = s.esp := rfl
@[simp] theorem State.setStatus_ops (st : Status) : (s.setStatus st).ops = s.ops := rfl
@[simp] theorem State.setStatus_status (st : Status) : (s.setStatus st).status = st := rfl
@[simp] theorem State.setStatus_output (st : Status) : (s.setStatus st).output = s.output := rfl
@[simp] theorem State.setStatus_cell (st : Status) (a : Nat) : (s.setStatus st).cell a = s.cell a := rfl
@[simp] theorem State.setStatus_ip (st : Status) : (s.setStatus st).ip = s.ip := rfl
@[simp] theorem State.setStatus_remainder (st : Status) : (s.setStatus st).remainder = s.remainder := rfl
@[simp] theorem State.setStatus_flags (st : Status) : (s.setStatus st).flags = s.flags := rfl

/-! ### emit -/

@[simp] theorem State.emit_cfg (v : Int) : (s.emit v).cfg = s.cfg := rfl
@[simp] theorem State.emit_image (v : Int) : (s.emit v).image = s.image := rfl
@[simp] theorem State.emit_mem (v : Int) : (s.emit v).mem = s.mem := rfl
@[simp] theorem State.emit_esp (v : Int) : (s.emit v).esp = s.esp := rfl
@[simp] theorem State.emit_ops (v : Int) : (s.emit v).ops = s.ops := rfl
@[simp] theorem State.emit_status (v : Int) : (s.emit v).status = s.status := rfl
@[simp] theorem State.emit_output (v : Int) : (s.emit v).output = s.output ++ [v] := rfl
@[simp] theorem State.emit_cell (v : Int) (a : Nat) : (s.emit v).cell a = s.cell a := rfl
@[simp] theorem State.emit_ip (v : Int) : (s.emit v).ip = s.ip := rfl
@[simp] theorem State.emit_remainder (v : Int) : (s.emit v).remainder = s.remainder := rfl
@[simp] theorem State.emit_flags (v : Int) : (s.emit v).flags = s.flags := rfl

/-! ### countOp -/

@[simp] theorem State.countOp_cfg : (s.countOp).cfg = s.cfg := rfl
@[simp] theorem State.countOp_image : (s.countOp).image = s.image := rfl
@[simp] theorem State.countOp_mem : (s.countOp).mem = s.mem := rfl
@[simp] theorem State.countOp_esp : (s.countOp).esp = s.esp := rfl
@[simp] theorem State.countOp_ops : (s.countOp).ops = s.ops + 1 := rfl
@[simp] theorem State.countOp_status : (s.countOp).status = s.status := rfl
@[simp] theorem State.countOp_output : (s.countOp).output = s.output := rfl
@[simp] theorem State.countOp_cell (a : Nat) : (s.countOp).cell a = s.cell a := rfl
@[simp] theorem State.countOp_ip : (s.countOp).ip = s.ip := rfl
@[simp] theorem State.countOp_remainder : (s.countOp).remainder = s.remainder := rfl
@[simp] theorem State.countOp_flags : (s.countOp).flags = s.flags := rfl

/-! ### The initial state -/

@[simp] theorem State.initial_cell (c : Config) (p : List Word) (a : Nat) : (State.initial c p).cell a = 0 := rfl

end Sys2Proof.Machine
end

