-- ==== Sys2Proof/Laws/Memory.lean ====
section
/-! SUPPORT. The laws of the machine image as data: a read after a write, and the canonical form every operation keeps. -/

namespace Sys2Proof.Machine

theorem Memory.read_erase (m : Memory) (a b : Nat) :
    (m.erase a).read b = if b = a then 0 else m.read b := by
  induction m with
  | nil => simp [Memory.erase, Memory.read]
  | cons p m ih =>
    obtain ⟨k, v⟩ := p
    rw [Memory.erase] at ih ⊢
    by_cases h : k = a
    · subst h
      by_cases hb : b = k
      · simpa [hb] using ih
      · simpa [Memory.read, hb, Ne.symm hb] using ih
    · by_cases hk : k = b
      · subst hk; simp [h, Memory.read]
      · simp [h, Memory.read, hk, ih]

theorem Memory.read_insert (m : Memory) (a b : Nat) (v : Int) (hm : ∀ p ∈ m, p.1 ≠ a) :
    (Memory.insert a v m).read b = if b = a then v else m.read b := by
  induction m with
  | nil =>
    by_cases h : b = a
    · simp [Memory.insert, Memory.read, h]
    · simp [Memory.insert, Memory.read, h, Ne.symm h]
  | cons p m ih =>
    obtain ⟨k, x⟩ := p
    have hk : k ≠ a := hm (k, x) (by simp)
    have ih' := ih (fun p hp => hm p (by simp [hp]))
    by_cases hlt : a < k
    · by_cases hb : b = a
      · simp [Memory.insert, hlt, Memory.read, hb]
      · simp [Memory.insert, hlt, Memory.read, hb, Ne.symm hb]
    · by_cases hkb : k = b
      · subst hkb; simp [Memory.insert, hlt, Memory.read, hk]
      · simp [Memory.insert, hlt, Memory.read, hkb, ih']

theorem Memory.mem_erase {m : Memory} {a : Nat} {p : Nat × Int} : p ∈ m.erase a ↔ p ∈ m ∧ p.1 ≠ a := by
  simp [Memory.erase]

theorem Memory.mem_insert {m : Memory} {a : Nat} {v : Int} {p : Nat × Int} :
    p ∈ Memory.insert a v m ↔ p = (a, v) ∨ p ∈ m := by
  induction m with
  | nil => simp [Memory.insert]
  | cons q m ih =>
    by_cases h : a < q.1
    · simp [Memory.insert, h]
    · simp only [Memory.insert, h, if_false, List.mem_cons, ih]; tauto

/-- A read after a write: the written cell holds the value, every other cell is as before; in every list, canonical or not. -/
theorem Memory.read_write (m : Memory) (a b : Nat) (v : Int) :
    (m.write a v).read b = if b = a then v else m.read b := by
  by_cases h : v = 0
  · simp [Memory.write, h, Memory.read_erase]
  · simp only [Memory.write, h, if_false]
    rw [Memory.read_insert _ _ _ _ (fun p hp => (Memory.mem_erase.1 hp).2), Memory.read_erase]
    by_cases hb : b = a <;> simp [hb]

theorem Memory.wf_erase {m : Memory} (h : m.wf) (a : Nat) : (m.erase a).wf :=
  ⟨h.1.filter _, fun p hp => h.2 p (Memory.mem_erase.1 hp).1⟩

theorem Memory.wf_insert {m : Memory} (h : m.wf) {a : Nat} {v : Int} (hv : v ≠ 0) (hm : ∀ p ∈ m, p.1 ≠ a) :
    (Memory.insert a v m).wf := by
  induction m with
  | nil => exact ⟨List.pairwise_singleton _ _, by simp [Memory.insert, hv]⟩
  | cons q m ih =>
    obtain ⟨hp, hz⟩ := h
    rw [List.pairwise_cons] at hp
    by_cases hlt : a < q.1
    · refine ⟨?_, fun p hpm => ?_⟩
      · simp only [Memory.insert, hlt, if_true, List.pairwise_cons, List.mem_cons]
        exact ⟨fun p hpm => hpm.elim (fun e => e ▸ hlt) (fun hm' => hlt.trans (hp.1 p hm')), hp⟩
      · rcases Memory.mem_insert.1 hpm with rfl | hpm
        · exact hv
        · exact hz p hpm
    · have hne : q.1 ≠ a := hm q (by simp)
      have ih' := ih ⟨hp.2, fun p hpm => hz p (by simp [hpm])⟩ (fun p hpm => hm p (by simp [hpm]))
      refine ⟨?_, fun p hpm => ?_⟩
      · simp only [Memory.insert, hlt, if_false, List.pairwise_cons]
        refine ⟨fun p hpm => ?_, ih'.1⟩
        rcases Memory.mem_insert.1 hpm with rfl | hpm
        · exact lt_of_le_of_ne (not_lt.1 hlt) hne
        · exact hp.1 p hpm
      · rcases Memory.mem_insert.1 hpm with rfl | hpm
        · exact hv
        · exact hz p hpm

/-- Every write keeps the canonical form. -/
theorem Memory.wf_write {m : Memory} (h : m.wf) (a : Nat) (v : Int) : (m.write a v).wf := by
  by_cases hv : v = 0
  · simpa [Memory.write, hv] using Memory.wf_erase h a
  · simpa [Memory.write, hv] using
      Memory.wf_insert (Memory.wf_erase h a) hv (fun p hp => (Memory.mem_erase.1 hp).2)

/-- The entries after a write are old ones and the written one. -/
theorem Memory.mem_write {m : Memory} {a : Nat} {v : Int} {p : Nat × Int} (h : p ∈ m.write a v) :
    p = (a, v) ∨ p ∈ m := by
  by_cases hv : v = 0
  · exact .inr (Memory.mem_erase.1 (by simpa [Memory.write, hv] using h)).1
  · rcases Memory.mem_insert.1 (by simpa [Memory.write, hv] using h) with rfl | h
    · exact .inl rfl
    · exact .inr (Memory.mem_erase.1 h).1

/-- The machine image of every core at its construction is in canonical form. -/
theorem State.initial_wf (c : Config) (p : List Word) : (State.initial c p).mem.wf :=
  ⟨List.Pairwise.nil, by simp [State.initial]⟩

/-! ## Reads of a cell after an update of the state -/

theorem State.setCell_cell (s : State) (n a : Nat) (v : Int) :
    (s.setCell n v).cell a = if a = n then v else s.cell a := Memory.read_write _ _ _ _

theorem State.setIp_cell (s : State) (t : Int) (a : Nat) :
    (s.setIp t).cell a = if a = 6 then t else s.cell a := State.setCell_cell _ _ _ _

@[simp] theorem State.setIp_ip (s : State) (t : Int) : (s.setIp t).ip = t := by
  simp [State.ip, State.setIp_cell]

theorem State.advance_cell (s : State) (len a : Nat) :
    (s.advance len).cell a = if a = 6 then s.ip + len else s.cell a := State.setIp_cell _ _ _

@[simp] theorem State.advance_ip (s : State) (len : Nat) : (s.advance len).ip = s.ip + len := State.setIp_ip _ _

theorem State.setCell_ip (s : State) (n : Nat) (v : Int) :
    (s.setCell n v).ip = if n = 6 then v else s.ip := by
  simp only [State.ip, State.setCell_cell, eq_comm]

end Sys2Proof.Machine
end

