-- ==== Sys2Proof/Laws/Ops.lean ====
section
/-! SUPPORT. For each shared operation, once, everything it can do: the equation of its normal case and, for the ones that stop,
their cases. -/

namespace Sys2Proof.Machine

variable {s t u : State}

/-! ## Access -/

theorem memRead_eq {a : Int} (h : inRange s.cfg a = true) : memRead s a = some (s.cell a.toNat) := by simp [memRead, h]

theorem memRead_none {a : Int} (h : inRange s.cfg a = false) : memRead s a = none := by simp [memRead, h]

theorem memWrite_eq {a v : Int} (h : inRange s.cfg a = true) : memWrite s a v = some (s.setCell a.toNat v) := by
  simp [memWrite, h]

theorem memWrite_none {a v : Int} (h : inRange s.cfg a = false) : memWrite s a v = none := by simp [memWrite, h]

theorem inRange_iff {c : Config} {a : Int} : inRange c a = true ↔ 0 ≤ a ∧ a ≤ lastCell c := by simp [inRange]

/-- What `resolve` answers: a direct operand is its word, an addressed one its cell, and only an addressed one outside 0..LAST has
no value. -/
theorem resolve_cases (s : State) (o : Operand) :
    (o.addressed = false ∧ resolve s o = some (o.word.toNat : Int)) ∨
    (o.addressed = true ∧ inRange s.cfg o.word.toNat = true ∧ resolve s o = some (s.cell o.word.toNat)) ∨
    (o.addressed = true ∧ inRange s.cfg o.word.toNat = false ∧ resolve s o = none) := by
  rcases ha : o.addressed with _ | _
  · exact .inl ⟨rfl, by simp [resolve, ha]⟩
  · rcases hr : inRange s.cfg o.word.toNat with _ | _
    · exact .inr (.inr ⟨rfl, rfl, by simp [resolve, ha, memRead, hr]⟩)
    · exact .inr (.inl ⟨rfl, rfl, by simp [resolve, ha, memRead, hr]⟩)

theorem withDest_eq {dest : Operand} {d : Int} (k : Int → Result) (h : resolve s dest = some d) :
    withDest s dest k = k d := by simp [withDest, h]

theorem withDest_none {dest : Operand} (k : Int → Result) (h : resolve s dest = none) :
    withDest s dest k = raise .outOfRange s := by simp [withDest, h]

theorem withOperands_eq {dest src : Operand} {d v : Int} (k : Int → Int → Result)
    (hd : resolve s dest = some d) (hv : resolve s src = some v) : withOperands s dest src k = k d v := by
  rw [withOperands, withDest_eq _ hd, withDest_eq _ hv]

/-! ## Completing -/

theorem complete_eq {w : List Int} (hip : fits s.cfg t.ip = true) (hw : ∀ v ∈ w, fits s.cfg v = true) :
    complete s t w = .next t.countOp := by
  have : (t.ip :: w).all (fits s.cfg) = true := by simp only [List.all_cons, List.all_eq_true, hip, Bool.true_and]; exact hw
  simp [complete, this]

/-- `complete` counts the step, with every written value in bound, or there is a bound, a value outside it, and the step is refused
with nothing written. -/
theorem complete_cases (s t : State) (w : List Int) :
    (complete s t w = .next t.countOp ∧ fits s.cfg t.ip = true ∧ ∀ v ∈ w, fits s.cfg v = true) ∨
    (complete s t w = refuse .cellBound s ∧ (∃ v ∈ t.ip :: w, fits s.cfg v = false) ∧ ∃ b, s.cfg.cellBound = some b) := by
  by_cases h : (t.ip :: w).all (fits s.cfg) = true
  · refine .inl ⟨by simp [complete, h], ?_⟩
    simpa using h
  · have h' : ∃ v ∈ t.ip :: w, fits s.cfg v = false := by
      by_contra hc
      exact h (List.all_eq_true.2 (fun v hv => by by_contra hf; exact hc ⟨v, hv, by simpa using hf⟩))
    refine .inr ⟨by simp only [complete, if_neg h], h', ?_⟩
    obtain ⟨v, -, hv⟩ := h'
    rcases hb : s.cfg.cellBound with _ | b
    · simp [fits, hb] at hv
    · exact ⟨b, rfl⟩

theorem writeBackFrom_eq {dest : Operand} {len : Nat} {v : Int} {w : List Int} (h : inRange t.cfg dest.word.toNat = true) :
    writeBackFrom s t dest len v w = completeAdvance s (t.setCell dest.word.toNat v) len (v :: w) := by
  simp [writeBackFrom, memWrite, h]

theorem writeBackFrom_none {dest : Operand} {len : Nat} {v : Int} {w : List Int} (h : inRange t.cfg dest.word.toNat = false) :
    writeBackFrom s t dest len v w = raise .outOfRange t := by
  simp [writeBackFrom, memWrite, h]

/-! ## The stack -/

theorem pushThen_eq {v : Int} (k : State → Result) (hf : stackFloor s.cfg ≤ s.esp) (hr : inRange s.cfg s.esp = true) :
    pushThen s v k = k ((s.setCell s.esp.toNat v).setEsp (s.esp - 1)) := by
  simp [pushThen, not_lt.2 hf, memWrite, hr]

theorem pushThen_overflow {v : Int} (k : State → Result) (h : s.esp < stackFloor s.cfg) :
    pushThen s v k = raise .stackOverflow s := by simp [pushThen, h]

theorem popThen_eq (k : State → Int → Result) (h0 : 0 ≤ s.esp + 1) (hl : s.esp + 1 ≤ lastCell s.cfg) :
    popThen s k = k (s.setEsp (s.esp + 1)) (s.cell (s.esp + 1).toNat) := by
  have hr : inRange s.cfg (s.esp + 1) = true := inRange_iff.2 ⟨h0, hl⟩
  simp [popThen, not_lt.2 hl, memRead, hr]

theorem popThen_empty (k : State → Int → Result) (h : lastCell s.cfg < s.esp + 1) :
    popThen s k = raise .invalidStack (s.setEsp (s.esp + 1)) := by simp [popThen, h]

end Sys2Proof.Machine
end

