-- ==== Sys2Proof/Laws/Exec.lean ====
section
/-! SUPPORT. Everything an instruction can do, once, over all instructions: it completes with at most one cell written besides the
instruction pointer, it takes a fault, or it is refused. The invariants and the rules about the whole machine follow from it. -/

namespace Sys2Proof.Machine

/-- `i` is an instruction that writes cell `a` (besides cell 6) from the state `s`. -/
def WritesCell (i : Instr) (s : State) (a : Nat) : Prop :=
  (i.mnemonic.writesDest = true ∧ ∃ dest, i.dest? = some dest ∧ a = dest.word.toNat ∧ inRange s.cfg dest.word.toNat = true) ∨
  (i.mnemonic = .mod ∧ a = 7) ∨ (i.mnemonic = .cmp ∧ a = 8) ∨
  ((i.mnemonic = .push ∨ i.mnemonic = .call) ∧ (a : Int) = s.esp ∧ stackFloor s.cfg ≤ s.esp ∧ s.esp ≤ lastCell s.cfg)

/-- `i` moves the stack pointer from `s` to `e`. -/
def MovesEsp (i : Instr) (s : State) (e : Int) : Prop :=
  ((i.mnemonic = .push ∨ i.mnemonic = .call) ∧ stackFloor s.cfg ≤ s.esp ∧ s.esp ≤ lastCell s.cfg ∧ e = s.esp - 1) ∨
  ((i.mnemonic = .pop ∨ i.mnemonic = .ret) ∧ s.esp + 1 ≤ lastCell s.cfg ∧ e = s.esp + 1)

/-- The state after a completed instruction: the cell it wrote, if any, the new `ip`, `esp` and output, one more operation. -/
def completed (s : State) (w : Option (Nat × Int)) (ip esp : Int) (out : List Int) : State :=
  { s with
    mem := ((w.elim s.mem (fun p => s.mem.write p.1 p.2)).write 6 ip)
    esp := esp
    ops := s.ops + 1
    output := out }

/-- The states an instruction can leave. -/
inductive ExecCase (i : Instr) (s : State) : State → Prop
  /-- It completed. -/
  | done (w : Option (Nat × Int)) (ip esp : Int) (out : List Int)
      (hw : ∀ p, w = some p → WritesCell i s p.1 ∧ fits s.cfg p.2 = true)
      (hip : fits s.cfg ip = true)
      (hesp : esp = s.esp ∨ (MovesEsp i s esp ∧ fits s.cfg esp = true))
      (hout : out = s.output ∨
        ∃ dest v, i = .prn dest ∧ resolve s dest = some v ∧ out = s.output ++ [v] ∧ fits s.cfg v = true) :
      ExecCase i s (completed s w ip esp out)
  /-- An operand cannot be read, or a write-back cannot be made as the first write. -/
  | outOfRange : ExecCase i s (s.setStatus (.faulted .outOfRange))
  /-- `pop` and `ret` of an empty stack. -/
  | emptyStack (hi : i.mnemonic = .pop ∨ i.mnemonic = .ret) (h : lastCell s.cfg < s.esp + 1) :
      ExecCase i s ((s.setEsp (s.esp + 1)).setStatus (.faulted .invalidStack))
  /-- `pop` and `ret` of a cell that does not exist, and `pop` to one. -/
  | popOutOfRange (hi : (i.mnemonic = .pop ∨ i.mnemonic = .ret) ∧ s.esp + 1 < 0 ∨ i.mnemonic = .pop)
      (h : s.esp + 1 ≤ lastCell s.cfg) :
      ExecCase i s ((s.setEsp (s.esp + 1)).setStatus (.faulted .outOfRange))
  /-- `push` and `call` below the floor. -/
  | overflow (hi : i.mnemonic = .push ∨ i.mnemonic = .call) (h : s.esp < stackFloor s.cfg) :
      ExecCase i s (s.setStatus (.faulted .stackOverflow))
  /-- `div` and `mod` by zero. -/
  | zeroDivisor (hi : i.mnemonic = .div ∨ i.mnemonic = .mod) (src : Operand) (hs : i.src? = some src)
      (h : resolve s src = some 0) : ExecCase i s (s.setStatus (.faulted .divideByZero))
  /-- `shl` and `shr` by a negative count. -/
  | negativeShift (hi : i.mnemonic = .shl ∨ i.mnemonic = .shr) (src : Operand) (hs : i.src? = some src) (v : Int)
      (h : resolve s src = some v) (hv : v < 0) : ExecCase i s (s.setStatus (.refused .negativeShift))
  /-- A value outside `CELL_BOUND`. -/
  | cellBound (b : CellBound) (hb : s.cfg.cellBound = some b) : ExecCase i s (s.setStatus (.refused .cellBound))

/-- The answer `r` is one of the states `i` can leave. -/
def Answers (i : Instr) (s : State) (r : Result) : Prop := ∃ u, r = .next u ∧ ExecCase i s u

variable {i : Instr} {s : State}

theorem answers_withDest {dest : Operand} {k : Int → Result}
    (hk : ∀ d, resolve s dest = some d → Answers i s (k d)) : Answers i s (withDest s dest k) := by
  rcases h : resolve s dest with _ | d
  · exact ⟨_, withDest_none k h, .outOfRange⟩
  · rw [withDest_eq k h]; exact hk d h

theorem answers_withOperands {dest src : Operand} {k : Int → Int → Result}
    (hk : ∀ d v, resolve s src = some v → Answers i s (k d v)) : Answers i s (withOperands s dest src k) :=
  answers_withDest (fun d _ => answers_withDest (fun v hv => hk d v hv))

/-- A completion answers if the completed state is one of the states `i` can leave, given that all it wrote is in bound. -/
theorem answers_complete {t : State} {w : List Int}
    (h : fits s.cfg t.ip = true → (∀ v ∈ w, fits s.cfg v = true) → ExecCase i s t.countOp) : Answers i s (complete s t w) := by
  rcases complete_cases s t w with ⟨e, hip, hw⟩ | ⟨e, -, b, hb⟩
  · exact ⟨_, e, h hip hw⟩
  · exact ⟨_, e, .cellBound b hb⟩

/-- The same for a completion with an advance. -/
theorem answers_completeAdvance {t : State} {len : Nat} {w : List Int}
    (h : fits s.cfg (t.ip + len) = true → (∀ v ∈ w, fits s.cfg v = true) → ExecCase i s (t.advance len).countOp) :
    Answers i s (completeAdvance s t len w) :=
  answers_complete (fun hip hw => h (by simpa using hip) hw)

theorem answers_writeBack {dest : Operand} {len : Nat} {v : Int}
    (hw : i.mnemonic.writesDest = true) (hd : i.dest? = some dest) : Answers i s (writeBack s dest len v) := by
  rcases hr : inRange s.cfg dest.word.toNat with _ | _
  · exact ⟨_, writeBackFrom_none hr, .outOfRange⟩
  · rw [writeBack, writeBackFrom_eq hr]
    refine answers_completeAdvance (fun hip hv => ?_)
    exact .done (some (dest.word.toNat, v)) _ s.esp s.output
      (fun p hp => by cases hp; exact ⟨.inl ⟨hw, dest, hd, rfl, hr⟩, hv v (by simp)⟩) hip (.inl rfl) (.inl rfl)

/-- Everything an instruction can do. -/
theorem exec_answers (i : Instr) (s : State) : Answers i s (exec i s) := by
  have jump : ∀ d, Answers i s (jumpTo s d) := fun d =>
    answers_complete (fun hip _ => .done none d s.esp s.output (by simp) (by simpa using hip) (.inl rfl) (.inl rfl))
  have step : ∀ n, Answers i s (completeAdvance s s n []) := fun n =>
    answers_completeAdvance (fun hip _ => .done none _ s.esp s.output (by simp) hip (.inl rfl) (.inl rfl))
  have jif : ∀ c dest, Answers i s (jumpIf c dest s) := fun c dest =>
    answers_withDest (fun d _ => by split <;> [exact jump d; exact step 2])
  have pushA : ∀ v k, (i.mnemonic = .push ∨ i.mnemonic = .call) →
      (inRange s.cfg s.esp = true → stackFloor s.cfg ≤ s.esp →
        Answers i s (k ((s.setCell s.esp.toNat v).setEsp (s.esp - 1)))) → Answers i s (pushThen s v k) := by
    intro v k hi hk
    by_cases hf : s.esp < stackFloor s.cfg
    · exact ⟨_, pushThen_overflow k hf, .overflow hi hf⟩
    · rcases hr : inRange s.cfg s.esp with _ | _
      · exact ⟨_, by simp [pushThen, hf, memWrite, hr]; rfl, .outOfRange⟩
      · rw [pushThen_eq k (not_lt.1 hf) hr]; exact hk hr (not_lt.1 hf)
  have popA : ∀ k, (i.mnemonic = .pop ∨ i.mnemonic = .ret) →
      (s.esp + 1 ≤ lastCell s.cfg → Answers i s (k (s.setEsp (s.esp + 1)) (s.cell (s.esp + 1).toNat))) →
      Answers i s (popThen s k) := by
    intro k hi hk
    by_cases hl : lastCell s.cfg < s.esp + 1
    · exact ⟨_, popThen_empty k hl, .emptyStack hi hl⟩
    · by_cases h0 : 0 ≤ s.esp + 1
      · rw [popThen_eq k h0 (not_lt.1 hl)]; exact hk (not_lt.1 hl)
      · refine ⟨_, ?_, .popOutOfRange (.inl ⟨hi, not_le.1 h0⟩) (not_lt.1 hl)⟩
        have hr : inRange s.cfg (s.esp + 1) = false := by simp [inRange, h0]
        simp [popThen, hl, memRead, hr]; rfl
  cases i with
  | nop => exact step 1
  | mov dest src => exact answers_withOperands (fun d v _ => answers_writeBack rfl rfl)
  | cmp dest src =>
    refine answers_withOperands (fun d v _ => answers_completeAdvance (fun hip hw => ?_))
    exact .done (some (8, cmpFlags d v)) _ s.esp s.output
      (fun p hp => by cases hp; exact ⟨.inr (.inr (.inl ⟨rfl, rfl⟩)), hw _ (by simp)⟩) hip (.inl rfl) (.inl rfl)
  | jmp dest => exact answers_withDest (fun d _ => jump d)
  | je dest => exact jif _ _
  | jne dest => exact jif _ _
  | jl dest => exact jif _ _
  | jle dest => exact jif _ _
  | jg dest => exact jif _ _
  | jge dest => exact jif _ _
  | mod dest src =>
    refine answers_withOperands (fun d v hv => ?_)
    split
    · rename_i h0; subst h0; exact ⟨_, rfl, .zeroDivisor (.inr rfl) src rfl hv⟩
    · refine answers_completeAdvance (fun hip hw => ?_)
      exact .done (some (7, tmod d v)) _ s.esp s.output
        (fun p hp => by cases hp; exact ⟨.inr (.inl ⟨rfl, rfl⟩), hw _ (by simp)⟩) hip (.inl rfl) (.inl rfl)
  | rem dest => exact answers_withDest (fun d _ => answers_writeBack rfl rfl)
  | inc dest => exact answers_withDest (fun d _ => answers_writeBack rfl rfl)
  | dec dest => exact answers_withDest (fun d _ => answers_writeBack rfl rfl)
  | not dest => exact answers_withDest (fun d _ => answers_writeBack rfl rfl)
  | add dest src => exact answers_withOperands (fun d v _ => answers_writeBack rfl rfl)
  | sub dest src => exact answers_withOperands (fun d v _ => answers_writeBack rfl rfl)
  | mul dest src => exact answers_withOperands (fun d v _ => answers_writeBack rfl rfl)
  | div dest src =>
    refine answers_withOperands (fun d v hv => ?_)
    split
    · rename_i h0; subst h0; exact ⟨_, rfl, .zeroDivisor (.inl rfl) src rfl hv⟩
    · exact answers_writeBack rfl rfl
  | and dest src => exact answers_withOperands (fun d v _ => answers_writeBack rfl rfl)
  | or dest src => exact answers_withOperands (fun d v _ => answers_writeBack rfl rfl)
  | xor dest src => exact answers_withOperands (fun d v _ => answers_writeBack rfl rfl)
  | shl dest src =>
    refine answers_withOperands (fun d v hv => ?_)
    split
    · rename_i h0; exact ⟨_, rfl, .negativeShift (.inl rfl) src rfl v hv h0⟩
    · exact answers_writeBack rfl rfl
  | shr dest src =>
    refine answers_withOperands (fun d v hv => ?_)
    split
    · rename_i h0; exact ⟨_, rfl, .negativeShift (.inr rfl) src rfl v hv h0⟩
    · exact answers_writeBack rfl rfl
  | push dest =>
    refine answers_withDest (fun d _ => pushA d _ (.inl rfl) (fun hr hf => answers_completeAdvance (fun hip hw => ?_)))
    have hr' := inRange_iff.1 hr
    exact .done (some (s.esp.toNat, d)) _ (s.esp - 1) s.output
      (fun p hp => by
        cases hp; exact ⟨.inr (.inr (.inr ⟨.inl rfl, Int.toNat_of_nonneg hr'.1, hf, hr'.2⟩)), hw _ (by simp)⟩)
      hip (.inr ⟨.inl ⟨.inl rfl, hf, hr'.2, rfl⟩, hw _ (by simp)⟩) (.inl rfl)
  | pop dest =>
    refine answers_withDest (fun d _ => popA _ (.inl rfl) (fun hl => ?_))
    rcases hr : inRange s.cfg dest.word.toNat with _ | _
    · exact ⟨_, writeBackFrom_none hr, .popOutOfRange (.inr rfl) hl⟩
    · rw [writeBackFrom_eq (by exact hr)]
      refine answers_completeAdvance (fun hip hw => ?_)
      exact .done (some (dest.word.toNat, s.cell (s.esp + 1).toNat)) _ (s.esp + 1) s.output
        (fun p hp => by cases hp; exact ⟨.inl ⟨rfl, dest, rfl, rfl, hr⟩, hw _ (by simp)⟩)
        hip (.inr ⟨.inr ⟨.inl rfl, hl, rfl⟩, hw _ (by simp)⟩) (.inl rfl)
  | call dest =>
    refine answers_withDest (fun d _ => pushA _ _ (.inr rfl) (fun hr hf => answers_complete (fun hip hw => ?_)))
    have hr' := inRange_iff.1 hr
    exact .done (some (s.esp.toNat, s.ip + 2)) d (s.esp - 1) s.output
      (fun p hp => by
        cases hp; exact ⟨.inr (.inr (.inr ⟨.inr rfl, Int.toNat_of_nonneg hr'.1, hf, hr'.2⟩)), hw _ (by simp)⟩)
      (by simpa using hip) (.inr ⟨.inl ⟨.inr rfl, hf, hr'.2, rfl⟩, hw _ (by simp)⟩) (.inl rfl)
  | ret =>
    refine popA (fun t v => complete s (t.setIp v) [t.esp]) (.inr rfl) (fun hl => answers_complete (fun hip hw => ?_))
    exact .done none (s.cell (s.esp + 1).toNat) (s.esp + 1) s.output (by simp) (by simpa using hip)
      (.inr ⟨.inr ⟨.inr rfl, hl, rfl⟩, hw _ (by simp)⟩) (.inl rfl)
  | prn dest =>
    refine answers_withDest (fun d hd => answers_completeAdvance (fun hip hw => ?_))
    exact .done none _ s.esp (s.output ++ [d]) (by simp) hip (.inl rfl)
      (.inr ⟨dest, d, rfl, hd, rfl, hw _ (by simp)⟩)

/-- The same as an inversion: what is known of the next state of an instruction. -/
theorem exec_cases {u : State} (h : exec i s = .next u) : ExecCase i s u := by
  obtain ⟨u', e, hc⟩ := exec_answers i s
  rw [e] at h; cases h; exact hc

end Sys2Proof.Machine
end

