-- ==== Sys2Proof/Laws/Integer.lean ====
section
/-! SUPPORT. The ALU's integer operations against their bit-level and division laws (00_scope.md R7, R8; 41_arithmetic.md). -/

namespace Sys2Proof.Machine

/-- A bit of a natural number. -/
theorem bit_ofNat (a k : Nat) : bit (Int.ofNat a) k = a.testBit k := by
  have h : Int.fdiv (Int.ofNat a) (2 ^ k) = ((a / 2 ^ k : Nat) : Int) := by
    rw [Int.fdiv_eq_ediv_of_nonneg _ (by positivity)]; simp
  rw [bit, floorDiv, h, Nat.testBit_eq_decide_div_mod_eq]
  by_cases hb : a / 2 ^ k % 2 = 1
  · have : ((a / 2 ^ k : Nat) : Int) % 2 = 1 := by omega
    rw [this, hb]; rfl
  · have : ((a / 2 ^ k : Nat) : Int) % 2 = 0 := by omega
    rw [this]; simp [hb]

/-- A bit of a negative number is the opposite bit of its complement. -/
theorem bit_negSucc (a k : Nat) : bit (Int.negSucc a) k = !a.testBit k := by
  have h : Int.fdiv (Int.negSucc a) (2 ^ k) = -((a / 2 ^ k : Nat) : Int) - 1 := by
    rw [Int.fdiv_eq_ediv_of_nonneg _ (by positivity), Int.negSucc_ediv _ (by positivity)]
    have : Int.ediv (a : Int) (2 ^ k) = ((a / 2 ^ k : Nat) : Int) := by push_cast; rfl
    rw [this]; omega
  rw [bit, floorDiv, h, Nat.testBit_eq_decide_div_mod_eq]
  by_cases hb : a / 2 ^ k % 2 = 1
  · have : (-((a / 2 ^ k : Nat) : Int) - 1) % 2 = 0 := by omega
    rw [this]; simp [hb]
  · have : (-((a / 2 ^ k : Nat) : Int) - 1) % 2 = 1 := by omega
    rw [this]; simp [hb]

theorem testBit_natAndNot (a b k : Nat) : (natAndNot a b).testBit k = (a.testBit k && !b.testBit k) := by
  rw [natAndNot, Nat.testBit_xor, Nat.testBit_and]
  cases a.testBit k <;> cases b.testBit k <;> rfl

/-- `tmod` is the core library's truncating remainder. -/
theorem tmod_eq (a b : Int) : tmod a b = Int.tmod a b := by
  rw [tmod, tdiv, Int.tmod_def]

end Sys2Proof.Machine
end

