-- ==== Sys2Proof/Laws/PerInstr.lean ====
section
/-! SUPPORT. Per instruction: the shape of its encoding (30_encoding.md R70, R74, R79), the opcode field and the number of words. -/

namespace Sys2Proof.Laws

/-- The words of `i` are as many as its length says, one to three, and the first carries its opcode number. -/
def EncodeShape.Statement (i : Instr) : Prop :=
  ∀ o : OpcMap, (encode o i).length = i.len ∧ 1 ≤ i.len ∧ i.len ≤ 3 ∧ opField (i.opcode o) = o.of i.mnemonic

theorem EncodeShape.nop : EncodeShape.Statement .nop :=
  fun _ => ⟨rfl, Nat.le_add_right 1 _, Instr.len_le _, opField_opcodeWord _ _ _⟩

theorem EncodeShape.mov (dest src : Operand) : EncodeShape.Statement (.mov dest src) :=
  fun _ => ⟨rfl, Nat.le_add_right 1 _, Instr.len_le _, opField_opcodeWord _ _ _⟩

theorem EncodeShape.cmp (dest src : Operand) : EncodeShape.Statement (.cmp dest src) :=
  fun _ => ⟨rfl, Nat.le_add_right 1 _, Instr.len_le _, opField_opcodeWord _ _ _⟩

theorem EncodeShape.jmp (dest : Operand) : EncodeShape.Statement (.jmp dest) :=
  fun _ => ⟨rfl, Nat.le_add_right 1 _, Instr.len_le _, opField_opcodeWord _ _ _⟩

theorem EncodeShape.je (dest : Operand) : EncodeShape.Statement (.je dest) :=
  fun _ => ⟨rfl, Nat.le_add_right 1 _, Instr.len_le _, opField_opcodeWord _ _ _⟩

theorem EncodeShape.jne (dest : Operand) : EncodeShape.Statement (.jne dest) :=
  fun _ => ⟨rfl, Nat.le_add_right 1 _, Instr.len_le _, opField_opcodeWord _ _ _⟩

theorem EncodeShape.jl (dest : Operand) : EncodeShape.Statement (.jl dest) :=
  fun _ => ⟨rfl, Nat.le_add_right 1 _, Instr.len_le _, opField_opcodeWord _ _ _⟩

theorem EncodeShape.jle (dest : Operand) : EncodeShape.Statement (.jle dest) :=
  fun _ => ⟨rfl, Nat.le_add_right 1 _, Instr.len_le _, opField_opcodeWord _ _ _⟩

theorem EncodeShape.jg (dest : Operand) : EncodeShape.Statement (.jg dest) :=
  fun _ => ⟨rfl, Nat.le_add_right 1 _, Instr.len_le _, opField_opcodeWord _ _ _⟩

theorem EncodeShape.jge (dest : Operand) : EncodeShape.Statement (.jge dest) :=
  fun _ => ⟨rfl, Nat.le_add_right 1 _, Instr.len_le _, opField_opcodeWord _ _ _⟩

theorem EncodeShape.mod (dest src : Operand) : EncodeShape.Statement (.mod dest src) :=
  fun _ => ⟨rfl, Nat.le_add_right 1 _, Instr.len_le _, opField_opcodeWord _ _ _⟩

theorem EncodeShape.rem (dest : Operand) : EncodeShape.Statement (.rem dest) :=
  fun _ => ⟨rfl, Nat.le_add_right 1 _, Instr.len_le _, opField_opcodeWord _ _ _⟩

theorem EncodeShape.inc (dest : Operand) : EncodeShape.Statement (.inc dest) :=
  fun _ => ⟨rfl, Nat.le_add_right 1 _, Instr.len_le _, opField_opcodeWord _ _ _⟩

theorem EncodeShape.dec (dest : Operand) : EncodeShape.Statement (.dec dest) :=
  fun _ => ⟨rfl, Nat.le_add_right 1 _, Instr.len_le _, opField_opcodeWord _ _ _⟩

theorem EncodeShape.not (dest : Operand) : EncodeShape.Statement (.not dest) :=
  fun _ => ⟨rfl, Nat.le_add_right 1 _, Instr.len_le _, opField_opcodeWord _ _ _⟩

theorem EncodeShape.add (dest src : Operand) : EncodeShape.Statement (.add dest src) :=
  fun _ => ⟨rfl, Nat.le_add_right 1 _, Instr.len_le _, opField_opcodeWord _ _ _⟩

theorem EncodeShape.sub (dest src : Operand) : EncodeShape.Statement (.sub dest src) :=
  fun _ => ⟨rfl, Nat.le_add_right 1 _, Instr.len_le _, opField_opcodeWord _ _ _⟩

theorem EncodeShape.mul (dest src : Operand) : EncodeShape.Statement (.mul dest src) :=
  fun _ => ⟨rfl, Nat.le_add_right 1 _, Instr.len_le _, opField_opcodeWord _ _ _⟩

theorem EncodeShape.div (dest src : Operand) : EncodeShape.Statement (.div dest src) :=
  fun _ => ⟨rfl, Nat.le_add_right 1 _, Instr.len_le _, opField_opcodeWord _ _ _⟩

theorem EncodeShape.and (dest src : Operand) : EncodeShape.Statement (.and dest src) :=
  fun _ => ⟨rfl, Nat.le_add_right 1 _, Instr.len_le _, opField_opcodeWord _ _ _⟩

theorem EncodeShape.or (dest src : Operand) : EncodeShape.Statement (.or dest src) :=
  fun _ => ⟨rfl, Nat.le_add_right 1 _, Instr.len_le _, opField_opcodeWord _ _ _⟩

theorem EncodeShape.xor (dest src : Operand) : EncodeShape.Statement (.xor dest src) :=
  fun _ => ⟨rfl, Nat.le_add_right 1 _, Instr.len_le _, opField_opcodeWord _ _ _⟩

theorem EncodeShape.shl (dest src : Operand) : EncodeShape.Statement (.shl dest src) :=
  fun _ => ⟨rfl, Nat.le_add_right 1 _, Instr.len_le _, opField_opcodeWord _ _ _⟩

theorem EncodeShape.shr (dest src : Operand) : EncodeShape.Statement (.shr dest src) :=
  fun _ => ⟨rfl, Nat.le_add_right 1 _, Instr.len_le _, opField_opcodeWord _ _ _⟩

theorem EncodeShape.push (dest : Operand) : EncodeShape.Statement (.push dest) :=
  fun _ => ⟨rfl, Nat.le_add_right 1 _, Instr.len_le _, opField_opcodeWord _ _ _⟩

theorem EncodeShape.pop (dest : Operand) : EncodeShape.Statement (.pop dest) :=
  fun _ => ⟨rfl, Nat.le_add_right 1 _, Instr.len_le _, opField_opcodeWord _ _ _⟩

theorem EncodeShape.call (dest : Operand) : EncodeShape.Statement (.call dest) :=
  fun _ => ⟨rfl, Nat.le_add_right 1 _, Instr.len_le _, opField_opcodeWord _ _ _⟩

theorem EncodeShape.ret : EncodeShape.Statement .ret :=
  fun _ => ⟨rfl, Nat.le_add_right 1 _, Instr.len_le _, opField_opcodeWord _ _ _⟩

theorem EncodeShape.prn (dest : Operand) : EncodeShape.Statement (.prn dest) :=
  fun _ => ⟨rfl, Nat.le_add_right 1 _, Instr.len_le _, opField_opcodeWord _ _ _⟩

end Sys2Proof.Laws
end

