-- ==== Sys2Proof/Laws/Step.lean ====
section
/-! SUPPORT. Everything a step can do, once. -/

namespace Sys2Proof.Machine

/-- What a running core can do in one step (30_encoding.md R98). -/
inductive CycleCase (s : State) : State → Prop
  | halt (h : (s.image.length : Int) ≤ s.ip) : CycleCase s (s.setStatus .halted)
  | negativeIp (h : s.ip < 0) : CycleCase s (s.setStatus (.faulted .outOfRange))
  | invalid (e : DecodeError) (h0 : 0 ≤ s.ip) (h : s.ip < s.image.length) (hf : fetch s = .error e) :
      CycleCase s (s.setStatus (.faulted .invalidProgram))
  | run (i : Instr) (h0 : 0 ≤ s.ip) (h : s.ip < s.image.length) (hf : fetch s = .ok i) {t : State} (he : exec i s = .next t) :
      CycleCase s t

/-- A cycle always answers a next state, one of the four kinds. -/
theorem cycle_cases (s : State) : ∃ t, cycle s = .next t ∧ CycleCase s t := by
  by_cases hh : (s.image.length : Int) ≤ s.ip
  · exact ⟨_, by simp [cycle, hh], .halt hh⟩
  by_cases hn : s.ip < 0
  · exact ⟨_, by simp [cycle, hh, hn]; rfl, .negativeIp hn⟩
  rcases hf : fetch s with e | i
  · exact ⟨_, by simp [cycle, hh, hn, hf]; rfl, .invalid e (not_lt.1 hn) (not_le.1 hh) hf⟩
  · obtain ⟨t, ht, -⟩ := exec_answers i s
    exact ⟨t, by simp [cycle, hh, hn, hf, ht], .run i (not_lt.1 hn) (not_le.1 hh) hf ht⟩

/-- What is known when a step answers a next state. -/
theorem step_cases {s t : State} (h : step s = .next t) :
    (s.status = .running ∧ CycleCase s t) ∨ (s.status = .halted ∧ t = s) := by
  rcases hs : s.status with _ | _ | f | r
  · obtain ⟨u, hu, hc⟩ := cycle_cases s
    have : cycle s = .next t := by simpa [step, hs] using h
    rw [hu] at this; cases this
    exact .inl ⟨rfl, hc⟩
  · have : s = t := by simpa [step, hs, stopped] using h
    exact .inr ⟨rfl, this.symm⟩
  · simp [step, hs, stopped] at h
  · simp [step, hs, stopped] at h

end Sys2Proof.Machine
end

