-- ==== Sys2Proof/Laws/Run.lean ====
section
/-! SUPPORT. What the bounded run does, step by step; the run without a bound is made of it. -/

namespace Sys2Proof.Machine

variable {s t : State}

/-- A step of a running core always answers a next state. -/
theorem step_running (h : s.status = .running) : ∃ t, step s = .next t := by
  obtain ⟨t, ht, -⟩ := cycle_cases s
  exact ⟨t, by simpa [step, h] using ht⟩

@[simp] theorem runFor_zero (s : State) : runFor 0 s = s := rfl

/-- A core that is not running stays as it is, for every bound. -/
theorem runFor_stopped (h : s.status ≠ .running) (n : Nat) : runFor n s = s := by
  cases n with
  | zero => rfl
  | succ n =>
    rw [runFor]
    split
    · exact absurd ‹_› h
    · rfl

/-- A running core takes its step first. -/
theorem runFor_succ (h : s.status = .running) (hs : step s = .next t) (n : Nat) : runFor (n + 1) s = runFor n t := by
  simp only [runFor, h, hs]

/-- A run of `m + n` steps is one of `n` steps after one of `m`. -/
theorem runFor_add (m n : Nat) (s : State) : runFor (m + n) s = runFor n (runFor m s) := by
  induction m generalizing s with
  | zero => rw [Nat.zero_add, runFor_zero]
  | succ m ih =>
    by_cases h : s.status = .running
    · obtain ⟨t, ht⟩ := step_running h
      rw [Nat.succ_add, runFor_succ h ht, runFor_succ h ht, ih]
    · rw [runFor_stopped h, runFor_stopped h, runFor_stopped h]

end Sys2Proof.Machine
end

