-- ==== Sys2Proof/Tests/Slice0.lean ====
section
/-! SUPPORT. Tests. Expected results come from the spec: 30_encoding.md R70 to R76 for the words, 95_test_vectors.md (the vector's id
stands at each test) for the steps and the links. The witnesses show that the hypotheses of each statement can be met. -/

namespace Sys2Proof.Tests

open Sys2Proof Sys2Proof.Machine

/-! ## Helpers -/

/-- The configuration of 95_test_vectors.md VZ2: LAST = 15, FLOOR = 13. -/
def small : Config := { memorySize := 16, stackSize := 2, cellBound := none, opc := defaultOpc }

/-- The same with a bound on the cells. -/
def bounded : Config := { small with cellBound := some ⟨-128, 127⟩ }

/-- A core right after construction with the image `ws`, then the cells of a vector's "pre". -/
def board (c : Config) (ws : List Word) (cells : List (Nat × Int)) : State :=
  cells.foldl (fun s p => s.setCell p.1 p.2) (State.initial c ws)

/-- A vector's pre-state in the default configuration. -/
def pre (ws : List Word) (cells : List (Nat × Int)) : State := board State.defaultConfig ws cells

/-- The state after one step, where the step answers one. -/
def after (s : State) : Option State :=
  match step s with
  | .next t => some t
  | _ => none

/-- The post-state of a step has the cell `a` at `v`, the given `ip`, and one operation more. -/
def leaves (s : State) (a : Nat) (v ip : Int) : Bool :=
  (after s).any (fun t => t.cell a == v && t.ip == ip && t.ops == s.ops + 1 && t.esp == s.esp)

/-- The step takes the fault `f` and changes nothing but the status and, where `up` is 1, `esp`. -/
def faultsWith (s : State) (f : Fault) (up : Int) : Bool :=
  after s == some { s with status := .faulted f, esp := s.esp + up }

/-- An addressed operand. -/
def at_ (n : Nat) : Operand := ⟨true, BitVec.ofNat 32 n⟩

/-- A direct operand. -/
def imm (n : Nat) : Operand := ⟨false, BitVec.ofNat 32 n⟩

/-! ## The operand contract (30_encoding.md R83): every write-back instruction with a direct destination is refused -/

theorem test_wellFormed_refuses_direct_destination :
    [Instr.mov (imm 0) (imm 1), .rem (imm 0), .inc (imm 0), .dec (imm 0), .not (imm 0), .add (imm 0) (at_ 1), .sub (imm 0) (imm 1),
      .mul (imm 0) (imm 1), .div (imm 0) (imm 1), .and (imm 0) (imm 1), .or (imm 0) (imm 1), .xor (imm 0) (imm 1), .shl (imm 0) (imm 1),
      .shr (imm 0) (imm 1), .pop (imm 0)].all (fun i => !i.wellFormed) = true := by decide

theorem test_wellFormed_accepts :
    [Instr.mov (at_ 0) (imm 1), .rem (at_ 0), .shr (at_ 0) (imm 1), .pop (at_ 0), .cmp (imm 3) (at_ 9), .mod (imm 7) (imm 2),
      .push (imm 10), .call (imm 7), .jmp (imm 2), .prn (imm 42), .nop, .ret].all (fun i => i.wellFormed) = true := by decide

/-- 10_state.md R21: VZ3's sizes are refused and one cell more is legal; 30_encoding.md R77: a map that is not injective is refused. -/
theorem test_config_checks :
    ¬ ({ small with memorySize := 11 } : Config).Legal ∧ ({ small with memorySize := 12 } : Config).Legal ∧
    ¬ ({ small with opc := { defaultOpc with prn := 0 } } : Config).Legal := by decide

/-- 30_encoding.md R116: a wrong operand count, a direct destination, an unknown register name. -/
theorem test_contract_checks :
    contractOk .inc [.register "eax", .register "ebx"] = false ∧ contractOk .ret [.literal 1] = false ∧
    contractOk .mov [.literal 5, .register "eax"] = false ∧ contractOk .pop [.labelRef "a"] = false ∧
    contractOk .mov [.register "esp", .literal 1] = false ∧ contractOk .mov [.register "eax", .register "ip"] = false ∧
    contractOk .mov [.register "edi", .labelRef "a"] = true := by decide

/-! ## Decoding: one word of each mnemonic, from 30_encoding.md R70, R74, R76 -/

theorem test_decode_nop : decode defaultOpc [0x00000000] = .ok .nop := by decide
theorem test_decode_mov : decode defaultOpc [0x00000601, 100, 7] = .ok (.mov ⟨true, 100⟩ ⟨false, 7⟩) := by decide
theorem test_decode_cmp : decode defaultOpc [0x00000902, 3, 9] = .ok (.cmp ⟨false, 3⟩ ⟨true, 9⟩) := by decide
theorem test_decode_jmp : decode defaultOpc [0x00000803, 40] = .ok (.jmp ⟨false, 40⟩) := by decide
theorem test_decode_je : decode defaultOpc [0x00000404, 300000] = .ok (.je ⟨true, 300000⟩) := by decide
theorem test_decode_jne : decode defaultOpc [0x00000805, 40] = .ok (.jne ⟨false, 40⟩) := by decide
theorem test_decode_jl : decode defaultOpc [0x00000806, 40] = .ok (.jl ⟨false, 40⟩) := by decide
theorem test_decode_jle : decode defaultOpc [0x00000807, 40] = .ok (.jle ⟨false, 40⟩) := by decide
theorem test_decode_jg : decode defaultOpc [0x00000808, 8] = .ok (.jg ⟨false, 8⟩) := by decide
theorem test_decode_jge : decode defaultOpc [0x00000409, 0] = .ok (.jge ⟨true, 0⟩) := by decide
theorem test_decode_mod : decode defaultOpc [0x00000A0A, 7, 2] = .ok (.mod ⟨false, 7⟩ ⟨false, 2⟩) := by decide
theorem test_decode_rem : decode defaultOpc [0x0000040B, 1] = .ok (.rem ⟨true, 1⟩) := by decide
theorem test_decode_inc : decode defaultOpc [0x0000040C, 2] = .ok (.inc ⟨true, 2⟩) := by decide
theorem test_decode_dec : decode defaultOpc [0x0000040D, 2] = .ok (.dec ⟨true, 2⟩) := by decide
theorem test_decode_not : decode defaultOpc [0x0000040E, 0] = .ok (.not ⟨true, 0⟩) := by decide
theorem test_decode_add : decode defaultOpc [0x0000060F, 1, 3] = .ok (.add ⟨true, 1⟩ ⟨false, 3⟩) := by decide
theorem test_decode_sub : decode defaultOpc [0x00000510, 0, 1] = .ok (.sub ⟨true, 0⟩ ⟨true, 1⟩) := by decide
theorem test_decode_mul : decode defaultOpc [0x00000611, 0, 65536] = .ok (.mul ⟨true, 0⟩ ⟨false, 65536⟩) := by decide
theorem test_decode_div : decode defaultOpc [0x00000512, 1, 0] = .ok (.div ⟨true, 1⟩ ⟨true, 0⟩) := by decide
theorem test_decode_and : decode defaultOpc [0x00000613, 0, 255] = .ok (.and ⟨true, 0⟩ ⟨false, 255⟩) := by decide
theorem test_decode_or : decode defaultOpc [0x00000614, 0, 1] = .ok (.or ⟨true, 0⟩ ⟨false, 1⟩) := by decide
theorem test_decode_xor : decode defaultOpc [0x00000515, 0, 5] = .ok (.xor ⟨true, 0⟩ ⟨true, 5⟩) := by decide
theorem test_decode_shl : decode defaultOpc [0x00000516, 0, 1] = .ok (.shl ⟨true, 0⟩ ⟨true, 1⟩) := by decide
theorem test_decode_shr : decode defaultOpc [0x00000617, 0, 40] = .ok (.shr ⟨true, 0⟩ ⟨false, 40⟩) := by decide
theorem test_decode_push : decode defaultOpc [0x00000818, 10] = .ok (.push ⟨false, 10⟩) := by decide
theorem test_decode_pop : decode defaultOpc [0x00000419, 6] = .ok (.pop ⟨true, 6⟩) := by decide
theorem test_decode_call : decode defaultOpc [0x0000041A, 0] = .ok (.call ⟨true, 0⟩) := by decide
theorem test_decode_ret : decode defaultOpc [0x0000001B] = .ok .ret := by decide
theorem test_decode_prn : decode defaultOpc [0x0000081C, 42] = .ok (.prn ⟨false, 42⟩) := by decide

/-- VD1, VD2, VD5: two unknown opcodes, an image that ends inside the operands. -/
theorem test_decode_refuses :
    decode defaultOpc [0x0000001D] = .error (.unknownOpcode 0x1D) ∧ decode defaultOpc [0x000000FF] = .error (.unknownOpcode 0xFF) ∧
    decode defaultOpc [0x00000601, 0] = .error (.truncated .mov) ∧ decode defaultOpc [] = .error .noWord := by decide

/-- VD3, VD4, VD14, VD15, VD16: bits 9, 11 and 31..12 are not read. -/
theorem test_decode_ignored_bits :
    decode defaultOpc [0xFFFFF000] = .ok .nop ∧ decode defaultOpc [0x00001601, 0, 5] = .ok (.mov ⟨true, 0⟩ ⟨false, 5⟩) ∧
    decode defaultOpc [0x00000F01, 0, 100] = .ok (.mov ⟨true, 0⟩ ⟨true, 100⟩) ∧
    decode defaultOpc [0x00000A01, 3, 9] = .ok (.mov ⟨false, 3⟩ ⟨false, 9⟩) ∧
    decode defaultOpc [0x0000080C, 5] = .ok (.inc ⟨false, 5⟩) := by decide

/-- The words of EX1, EX2, VK1 and VD6, encoded. -/
theorem test_encode :
    encode defaultOpc (.cmp ⟨false, 3⟩ ⟨true, 9⟩) = [0x00000902, 3, 9] ∧ encode defaultOpc (.jmp ⟨false, 5⟩) = [0x00000803, 5] ∧
    encode defaultOpc (.call ⟨false, 7⟩) = [0x0000081A, 7] ∧ encode defaultOpc .ret = [0x0000001B] := by decide

/-- The numbering of spec/opcode_table.json: first word lowest; what is above the given bits is 0. -/
theorem test_decodeTableWord :
    decodeTableWord 96 0x000000070000006400000601 = some (.mov ⟨true, 100⟩ ⟨false, 7⟩) ∧
    decodeTableWord 32 0x000000070000006400000601 = some (.mov ⟨true, 0⟩ ⟨false, 0⟩) ∧
    decodeTableWord 8 0x1B = some .ret ∧ decodeTableWord 32 0x1D = none := by decide

/-- What is placed at the instruction pointer is what the next step runs, right after reset: VK1. -/
theorem test_withFetchWord :
    leaves (State.reset.withFetchWord 64 0x000000070000041C) 0 0 2 = true ∧
    (after (State.reset.withFetchWord 64 0x000000070000081A)).any (fun t => t.cell 262143 == 2 && t.ip == 7) = true := by decide

/-! ## One step of each instruction (95_test_vectors.md) -/

/-- VO1. -/
theorem test_nop : leaves (pre [0x00000000] []) 0 0 1 = true := by decide

/-- VM1, VD17: a write to cell 6 comes before the advance. -/
theorem test_mov : leaves (pre [0x00000501, 1, 0] [(0, 42)]) 1 42 3 = true := by decide
theorem test_mov_to_ip : leaves (pre [0x00000601, 6, 10] []) 0 0 13 = true := by decide

/-- VC5, VC4: OF stored before is cleared. -/
theorem test_cmp : leaves (pre [0x00000502, 0, 1] [(0, -5), (1, 3)]) 8 2 3 = true := by decide
theorem test_cmp_clears_of : leaves (pre [0x00000602, 0, 0] [(0, 1), (8, 4)]) 8 0 3 = true := by decide

/-- VJ2, VJ3. -/
theorem test_jmp : leaves (pre [0x00000403, 0] [(0, 7)]) 0 7 7 = true := by decide
theorem test_jmp_out_of_range : faultsWith (pre [0x00000403, 300000] []) .outOfRange 0 = true := by decide

/-- The `ip` after `j 40` for the FLAGS values 0, 1, 2, 4, 5, 6. -/
def jumpRow (op : Word) : List (Option Int) :=
  [0, 1, 2, 4, 5, 6].map (fun f => (after (board small [op, 40] [(8, f)])).map (·.ip))

/-- The columns of 95_test_vectors.md L2.7. -/
theorem test_je : jumpRow 0x00000804 = [some 2, some 40, some 2, some 2, some 40, some 2] := by decide
theorem test_jne : jumpRow 0x00000805 = [some 40, some 2, some 40, some 40, some 2, some 40] := by decide
theorem test_jl : jumpRow 0x00000806 = [some 2, some 2, some 40, some 40, some 40, some 2] := by decide
theorem test_jle : jumpRow 0x00000807 = [some 2, some 40, some 40, some 40, some 40, some 2] := by decide
theorem test_jg : jumpRow 0x00000808 = [some 40, some 2, some 2, some 2, some 2, some 40] := by decide
theorem test_jge : jumpRow 0x00000809 = [some 40, some 40, some 2, some 2, some 2, some 40] := by decide

/-- VJ5: the target is resolved before the test. -/
theorem test_je_resolves_first : faultsWith (pre [0x00000404, 300000] []) .outOfRange 0 = true := by decide

/-- VR2, VR5. -/
theorem test_mod : leaves (pre [0x0000060A, 0, 2] [(0, -7)]) 7 (-1) 3 = true := by decide
theorem test_mod_by_zero : faultsWith (pre [0x0000050A, 0, 1] [(0, 7), (7, 99)]) .divideByZero 0 = true := by decide

/-- VR8. -/
theorem test_rem : leaves (pre [0x0000040B, 1] [(7, -1)]) 1 (-1) 2 = true := by decide

/-- VU2, VD16: a direct destination is read as its word and written as a cell. -/
theorem test_inc : leaves (pre [0x0000040C, 0] [(0, 4294967295)]) 0 4294967296 2 = true := by decide
theorem test_inc_direct : leaves (pre [0x0000080C, 5] [(5, 9)]) 5 6 2 = true := by decide

/-- VU4. -/
theorem test_dec : leaves (pre [0x0000040D, 2] []) 2 (-1) 2 = true := by decide

/-- VU7. -/
theorem test_not : leaves (pre [0x0000040E, 0] [(0, 4294967295)]) 0 (-4294967296) 2 = true := by decide

/-- VA2, VD18. -/
theorem test_add : leaves (pre [0x0000050F, 0, 0] [(0, 21)]) 0 42 3 = true := by decide
theorem test_add_to_ip : leaves (pre [0x0000060F, 6, 3] []) 8 0 6 = true := by decide

/-- VA3. -/
theorem test_sub : leaves (pre [0x00000510, 0, 1] [(0, 3), (1, 5)]) 0 (-2) 3 = true := by decide

/-- VA4: no wrap. -/
theorem test_mul : leaves (pre [0x00000611, 0, 65536] [(0, 65536)]) 0 4294967296 3 = true := by decide

/-- VA7, VA11. -/
theorem test_div : leaves (pre [0x00000512, 0, 1] [(0, -7), (1, 2)]) 0 (-3) 3 = true := by decide
theorem test_div_by_zero : faultsWith (pre [0x00000512, 0, 1] [(0, 5)]) .divideByZero 0 = true := by decide

/-- VA14, VA15. -/
theorem test_and : leaves (pre [0x00000513, 0, 1] [(0, -8), (1, 7)]) 0 0 3 = true := by decide
theorem test_and_negative : leaves (pre [0x00000613, 0, 255] [(0, -1)]) 0 255 3 = true := by decide

/-- VA17. -/
theorem test_or : leaves (pre [0x00000614, 0, 3] [(0, -8)]) 0 (-5) 3 = true := by decide

/-- VA18, VA19. -/
theorem test_xor_self : leaves (pre [0x00000515, 0, 0] [(0, 77)]) 0 0 3 = true := by decide
theorem test_xor : leaves (pre [0x00000615, 0, 5] [(0, -1)]) 0 (-6) 3 = true := by decide

/-- VA22, VA23. -/
theorem test_shl : leaves (pre [0x00000616, 0, 2] [(0, -3)]) 0 (-12) 3 = true := by decide
theorem test_shl_negative :
    after (pre [0x00000516, 0, 1] [(0, 1), (1, -1)]) =
      some { pre [0x00000516, 0, 1] [(0, 1), (1, -1)] with status := .refused .negativeShift } := by decide

/-- VA25, VA26. -/
theorem test_shr : leaves (pre [0x00000617, 0, 1] [(0, -7)]) 0 (-4) 3 = true := by decide
theorem test_shr_far : leaves (pre [0x00000617, 0, 40] [(0, -1)]) 0 (-1) 3 = true := by decide

/-- VS3, VS4. -/
theorem test_push_at_floor :
    (after { pre [0x00000818, 1] [] with esp := 258047 }).any (fun t => t.cell 258047 == 1 && t.esp == 258046 && t.ip == 2) = true := by
  decide
theorem test_push_overflow : faultsWith { pre [0x00000818, 1] [] with esp := 258046 } .stackOverflow 0 = true := by decide

/-- VS7, VS9: `esp` stays up where the write-back is out of range. -/
theorem test_pop_to_ip :
    (after { pre [0x00000419, 6] [(262143, 20)] with esp := 262142 }).any
      (fun t => t.ip == 22 && t.esp == 262143 && t.cell 262143 == 20) = true := by decide
theorem test_pop_direct_out_of_range :
    faultsWith { pre [0x00000019, 300000] [(262143, 20)] with esp := 262142 } .outOfRange 1 = true := by decide

/-- VK1, VK3. -/
theorem test_call :
    (after (pre [0x0000081A, 7] [])).any (fun t => t.cell 262143 == 2 && t.esp == 262142 && t.ip == 7) = true := by decide
theorem test_call_overflow : faultsWith { pre [0x0000081A, 7] [] with esp := 258046 } .stackOverflow 0 = true := by decide

/-- VK4, VK5. -/
theorem test_ret :
    (after { pre [0x0000001B] [(262143, 40)] with esp := 262142 }).any (fun t => t.ip == 40 && t.esp == 262143) = true := by decide
theorem test_ret_empty : faultsWith (pre [0x0000001B] []) .invalidStack 1 = true := by decide

/-- VO3. -/
theorem test_prn :
    (after (pre [0x0000041C, 0] [(0, -6)])).any (fun t => t.output == [-6] && t.ip == 2) = true := by decide

/-! ## Fetch, reset, construction -/

/-- VD8, VD9, VD1. -/
theorem test_fetch_stops :
    (after State.reset).map (·.status) = some .halted ∧ faultsWith (pre [0x00000000] [(6, -1)]) .outOfRange 0 = true ∧
    faultsWith (pre [0x0000001D] []) .invalidProgram 0 = true := by decide

/-- VZ2, VZ4: the derived constants and `esp`; a ragged image is refused. VZ3 is `test_config_checks`. -/
theorem test_construct :
    (construct [0x1B, 0, 0, 0] small).toOption.map (fun s => (lastCell s.cfg, stackFloor s.cfg, s.esp, s.image)) =
      some (15, 13, 15, [0x0000001B]) ∧
    (construct [1, 6, 0, 0, 0, 0, 0] small).toOption = none := by decide

/-- The texts of VO2 and VO3. -/
theorem test_render : renderEntry 15 = "15" ∧ renderEntry (-6) = "-6" := by decide

/-! ## The linker engine (95_test_vectors.md L2.11) -/

/-- A node without a label. -/
def plain (m : String) (ops : List NodeOperand) : Node := ⟨none, m, ops⟩

/-- VL2. -/
theorem test_link_start :
    (linkWords defaultOpc [plain "nop" [], ⟨some "start", "nop", []⟩]).toOption = some [0x00000803, 3, 0, 0] := by decide

/-- VL3. -/
theorem test_link_start_loop :
    (linkWords defaultOpc [⟨some "start", "jmp", [.labelRef "start"]⟩]).toOption = some [0x00000803, 2, 0x00000803, 2] := by decide

/-- VL4. -/
theorem test_link_last_definition :
    (linkWords defaultOpc [⟨some "a", "nop", []⟩, ⟨some "a", "jmp", [.labelRef "a"]⟩]).toOption = some [0, 0x00000803, 1] := by decide

/-- VL6, VL7, VL8, VL9, VL10. -/
theorem test_link_errors :
    linkWords defaultOpc [plain "foo" [.register "eax"]] = .error .unknownMnemonic ∧
    linkWords defaultOpc [plain "mov" [.register "eax", .literal 4294967296]] = .error .literalOutOfRange ∧
    linkWords defaultOpc [plain "mov" [.register "eax", .literal 4294967295]] = .ok [0x00000601, 0, 4294967295] ∧
    linkWords defaultOpc [plain "mov" [.literal 5, .register "eax"]] = .error .contractViolation ∧
    linkWords defaultOpc [plain "inc" [.register "eax", .register "ebx"]] = .error .contractViolation :=
  ⟨rfl, rfl, rfl, rfl, rfl⟩

/-- EX4: one undefined label is the one named. -/
theorem test_link_undefined : linkWords defaultOpc [plain "jmp" [.labelRef "nowhere"]] = .error (.undefinedLabel "nowhere") := rfl

/-- VL11: a label as a direct source. -/
theorem test_link_label_source :
    (linkWords defaultOpc [plain "mov" [.register "eax", .labelRef "t"], plain "jmp" [.register "eax"],
      ⟨some "t", "nop", []⟩]).toOption = some [0x00000601, 0, 5, 0x00000403, 0, 0] := by decide

/-- VL14. -/
theorem test_link_bytes :
    (link defaultOpc [plain "mov" [.memoryOffset 100, .literal 7]]).toOption =
      some [0x01, 0x06, 0x00, 0x00, 0x64, 0x00, 0x00, 0x00, 0x07, 0x00, 0x00, 0x00] := by decide

/-! ## Witnesses: concrete inputs that meet the hypotheses of each statement, clause by clause -/

/-- A small core with `eax` 7, `ebx` -2, cell 15 (LAST) 20, and room on the stack. -/
def sample : State := { board small [] [(0, 7), (1, -2), (15, 20)] with esp := 14 }

/-- The same core in a finite realisation. -/
def sampleBounded : State := { sample with cfg := bounded }

theorem witness_ConstructLoadsLittleEndianWords :
    ¬ ({ small with memorySize := 11 } : Config).Legal ∧
    (small.Legal ∧ ([1, 6, 0, 0, 0, 0, 0] : List Byte).length % 4 ≠ 0) ∧
    (small.Legal ∧ ([0x1B, 0, 0, 0] : List Byte).length % 4 = 0) ∧ (small.Legal ∧ ([] : List Byte).length % 4 = 0) := by decide

theorem witness_ConstructedCoreHasInvariant : ∃ s, construct [0x1B, 0, 0, 0] small = .ok s := ⟨_, rfl⟩

theorem witness_DecodeInvertsEncode : defaultOpc.Injective := by decide

theorem witness_OpcodeAloneGivesLengthAndOperands :
    ∃ i, decode defaultOpc [0xFFFFFF01, 0xFFFFFFFF, 0] = .ok i ∧ i.dest? = some ⟨true, 0xFFFFFFFF⟩ ∧ i.src? = some ⟨true, 0⟩ :=
  ⟨_, rfl, by decide⟩

theorem witness_DecoderIgnoresTheOtherBits :
    (∀ k, k < 8 ∨ k = 8 ∨ k = 10 → (0x601 : Word).getLsbD k = (0xFFFFF401 : Word).getLsbD k) ∧
    (defaultOpc.Injective ∧ defaultOpc.of .mov = (0xFFFFF401 : Word).extractLsb' 0 8 ∧ Mnemonic.mov.arity ≤ [(0 : Word), 5].length) ∧
    (∃ i, decode defaultOpc (0xFFFFF401 :: [0, 5]) = .ok i ∧ i.dest? = some ⟨true, 0⟩ ∧ i.src? = some ⟨false, 5⟩) := by
  refine ⟨?_, by decide, ⟨_, rfl, by decide⟩⟩
  rintro k (h | rfl | rfl)
  · interval_cases k <;> decide
  · decide
  · decide

theorem witness_ImageBytesRoundTrip : ∃ ws, wordsOfBytes [0x01, 0x06, 0x00, 0x00] = some ws ∧ 0 < ws.length := ⟨_, rfl, by decide⟩

/-- At the last word of the image. -/
theorem witness_StepRunsTheDecodedInstruction :
    let s := board small [0x601, 0, 0] [(6, 2)]
    s.status = .running ∧ 0 ≤ s.ip ∧ s.ip < s.image.length ∧ decode s.cfg.opc (s.image.drop s.ip.toNat) = .ok .nop := by decide

theorem witness_FetchOutsideTheImage :
    (let s := board small [0] [(6, 1)]; s.status = .running ∧ (s.image.length : Int) ≤ s.ip) ∧
    (let s := board small [0] [(6, -1)]; s.status = .running ∧ s.ip < 0) := by decide

theorem witness_UnknownOpcodeIsInvalidProgram :
    (let s := board small [0xFFFFFF1D] [];
      s.status = .running ∧ 0 ≤ s.ip ∧ s.image[s.ip.toNat]? = some 0xFFFFFF1D ∧
        ∀ m, s.cfg.opc.of m ≠ (0xFFFFFF1D : Word).extractLsb' 0 8) ∧
    (let s := board small [0xFFFFFF1B] [];
      s.status = .running ∧ 0 ≤ s.ip ∧ s.image[s.ip.toNat]? = some 0xFFFFFF1B ∧ s.cfg.opc.Injective ∧
        s.cfg.opc.of .ret = (0xFFFFFF1B : Word).extractLsb' 0 8 ∧ fetch s = .ok .ret) :=
  ⟨⟨rfl, by decide, by decide, by intro m; cases m <;> decide⟩, by decide⟩

theorem witness_TruncatedInstructionIsInvalidProgram :
    let s := board small [0x601, 0] []
    s.status = .running ∧ 0 ≤ s.ip ∧ s.image[s.ip.toNat]? = some 0x601 ∧
      lookupMnemonic s.cfg.opc (opField 0x601) = some .mov ∧ (s.image.length : Int) ≤ s.ip + Mnemonic.mov.arity := by decide

theorem witness_StoppedCoreTakesNoStep :
    ({ sample with status := .halted } : State).status = .halted ∧
    ({ sample with status := .faulted .outOfRange } : State).status = .faulted .outOfRange ∧
    ({ sample with status := .refused .cellBound } : State).status = .refused .cellBound := by decide

/-- A run that ends (VD7), one that never does (VL3), and a stopped core. -/
theorem witness_RunStepsUntilNotRunning :
    (∃ t, Run (board small [0] []) t ∧ t.status = .halted ∧ t.ops = 1) ∧ (board small [0] []).status = .running ∧
    RunsForever (board small [0x803, 0] []) ∧
    ({ sample with status := .halted } : State).status ≠ .running := by
  refine ⟨⟨_, ⟨2, rfl, by decide⟩, by decide⟩, rfl, fun n => ?_, by decide⟩
  have h : ∀ (n k : Nat), ∃ m, runFor n { board small [0x803, 0] [] with ops := k } = { board small [0x803, 0] [] with ops := m } := by
    intro n
    induction n with
    | zero => exact fun k => ⟨k, rfl⟩
    | succ n ih => exact fun k => ih (k + 1)
  obtain ⟨m, hm⟩ := h n 0
  have e : ({ board small [0x803, 0] [] with ops := 0 } : State) = board small [0x803, 0] [] := rfl
  rw [e] at hm; rw [hm]; rfl

/-- A `pop` of an empty stack, where the range of `esp` is at its end. -/
theorem witness_StepKeepsInvariant :
    let s := board small [0x419, 0] []
    s.Inv ∧ ∃ t, step s = .next t ∧ t.status = .faulted .invalidStack ∧ t.esp = 16 := by
  refine ⟨by decide, _, rfl, by decide⟩

/-- `inc` to the upper end of the bound. -/
theorem witness_StepKeepsCellBound :
    let s := board bounded [0x40C, 0] [(0, 126)]
    s.WithinBound ∧ ∃ t, step s = .next t ∧ t.cell 0 = 127 ∧ t.status = .running := by
  refine ⟨by decide, _, rfl, by decide⟩

theorem witness_ProgramImageIsNeverWritten : ∃ t, step (board small [0x601, 0, 5] []) = .next t ∧ t.ops = 1 := ⟨_, rfl, by decide⟩

theorem witness_OnlyPrnExtendsOutput :
    (∃ t, step (board small [0x81C, 42] []) = .next t ∧ t.output = [42]) ∧
    (∃ t, step (board small [0] []) = .next t ∧ t.output = []) ∧
    (∃ t, exec (.prn (imm 42)) (board small [] []) = .next t ∧ t.ops = 1) :=
  ⟨⟨_, rfl, by decide⟩, ⟨_, rfl, by decide⟩, ⟨_, rfl, by decide⟩⟩

theorem witness_CounterCountsCompletedInstructions :
    (let s := board small [0] []; s.status = .running ∧ ∃ t, step s = .next t ∧ t.ops = 1) ∧
    (let s := board small [] []; s.status = .running ∧ ∃ t, step s = .next t ∧ t.status = .halted) :=
  ⟨⟨rfl, _, rfl, by decide⟩, ⟨rfl, _, rfl, by decide⟩⟩

/-- `ip` one word before the end of the image, and at it. -/
theorem witness_OnlyTheEndOfTheImageHalts :
    (∃ t, exec .nop sample = .next t ∧ t.status = .running) ∧ sample.status = .running ∧
    (let s := board small [0] []; s.status = .running ∧ ∃ t, step s = .next t ∧ t.status = .running) ∧
    (let s := board small [0] [(6, 1)]; s.status = .running ∧ ∃ t, step s = .next t ∧ t.status = .halted) :=
  ⟨⟨_, rfl, by decide⟩, rfl, ⟨rfl, _, rfl, by decide⟩, ⟨rfl, _, rfl, by decide⟩⟩

theorem witness_StackDepthCountsPushes :
    (∃ t, exec (.push (imm 9)) sample = .next t ∧ t.ops = sample.ops + 1 ∧ t.depth = 2) ∧
    (∃ t, exec (.call (imm 9)) sample = .next t ∧ t.ops = sample.ops + 1) ∧
    (∃ t, exec (.pop (at_ 0)) sample = .next t ∧ t.ops = sample.ops + 1 ∧ t.depth = 0) ∧
    (∃ t, exec .ret sample = .next t ∧ t.ops = sample.ops + 1) ∧ (∃ t, exec .nop sample = .next t ∧ t.ops = sample.ops + 1) :=
  ⟨⟨_, rfl, by decide⟩, ⟨_, rfl, by decide⟩, ⟨_, rfl, by decide⟩, ⟨_, rfl, by decide⟩, ⟨_, rfl, by decide⟩⟩

/-- A fault that leaves `esp` alone, and the two that leave it one up. -/
theorem witness_FaultLeavesOnlyStatusAndEsp :
    (let s := board small [0x612, 0, 0] [];
      s.Inv ∧ s.status = .running ∧ ∃ t, step s = .next t ∧ t.status = .faulted .divideByZero) ∧
    (let s := board small [0x1B] [];
      s.Inv ∧ s.status = .running ∧ ∃ t, step s = .next t ∧ t.status = .faulted .invalidStack) ∧
    (let s : State := { board small [0x19, 16] [] with esp := 14 };
      s.Inv ∧ s.status = .running ∧ ∃ t, step s = .next t ∧ t.status = .faulted .outOfRange ∧ t.esp = 15) :=
  ⟨⟨by decide, rfl, _, rfl, by decide⟩, ⟨by decide, rfl, _, rfl, by decide⟩, ⟨by decide, rfl, _, rfl, by decide⟩⟩

theorem witness_RefusedStepWritesNothing :
    (let s := board small [0x516, 0, 1] [(1, -1)];
      s.status = .running ∧ s.cfg.cellBound = none ∧ ∃ t, step s = .next t ∧ t.status = .refused .negativeShift) ∧
    (let s := board bounded [0x40C, 0] [(0, 127)];
      s.status = .running ∧ ∃ t, step s = .next t ∧ t.status = .refused .cellBound) :=
  ⟨⟨rfl, rfl, _, rfl, by decide⟩, ⟨rfl, _, rfl, by decide⟩⟩

theorem witness_FaultCauses :
    (∃ t, exec .ret { sample with esp := 15 } = .next t ∧ t.status = .faulted .invalidStack) ∧
    (∃ t, exec (.call (imm 7)) { sample with esp := 12 } = .next t ∧ t.status = .faulted .stackOverflow) ∧
    (∃ t, exec (.mod (at_ 0) (imm 0)) sample = .next t ∧ t.status = .faulted .divideByZero) ∧
    (∃ t, exec (.jmp (at_ 16)) sample = .next t ∧ t.status = .faulted .outOfRange) ∧
    (∃ t, exec (.pop (imm 16)) sample = .next t ∧ t.status = .faulted .outOfRange) ∧ sample.status = .running ∧ sample.Inv :=
  ⟨⟨_, rfl, by decide⟩, ⟨_, rfl, by decide⟩, ⟨_, rfl, by decide⟩, ⟨_, rfl, by decide⟩, ⟨_, rfl, by decide⟩, rfl, by decide⟩

theorem witness_FrameOfEveryInstruction :
    (∃ t, exec (.mov (at_ 15) (imm 1)) sample = .next t ∧ t.cell 15 ≠ sample.cell 15) ∧
    (∃ t, exec (.mod (at_ 0) (at_ 1)) sample = .next t ∧ t.cell 7 ≠ sample.cell 7) ∧
    (∃ t, exec (.cmp (at_ 0) (imm 7)) sample = .next t ∧ t.cell 8 ≠ sample.cell 8) ∧
    (∃ t, exec (.push (imm 9)) sample = .next t ∧ t.cell 14 ≠ sample.cell 14 ∧ t.esp = 13) ∧
    (∃ t, exec .ret sample = .next t ∧ t.esp = 15) :=
  ⟨⟨_, rfl, by decide⟩, ⟨_, rfl, by decide⟩, ⟨_, rfl, by decide⟩, ⟨_, rfl, by decide⟩, ⟨_, rfl, by decide⟩⟩

theorem witness_OnlyCmpComputesFlags :
    sample.cfg.Legal ∧ (∃ t, exec (.cmp (at_ 0) (imm 7)) sample = .next t ∧ t.flags ≠ sample.flags) ∧
    (∃ t, exec (.mov (at_ 8) (imm 4)) sample = .next t ∧ t.flags ≠ sample.flags) ∧
    (resolve sample (at_ 8) = some 0 ∧ resolve sample (imm 4) = some 4 ∧ (at_ 8).word.toNat = 8 ∧ (4 : Int) ≠ 0 ∧ (4 : Int) = (4 : Nat) ∧
      CanWriteBack sample (at_ 8) 3 4 ∧ CanWriteBack sample (at_ 8) 3 (0 * 2 ^ 4)) ∧
    (resolve sample (imm 8) = some 8 ∧ (imm 8).word.toNat = 8 ∧ CanWriteBack sample (imm 8) 2 (-8 - 1)) ∧
    (0 ≤ sample.esp + 1 ∧ sample.esp + 1 ≤ lastCell sample.cfg ∧ fits sample.cfg (sample.esp + 1) = true ∧
      CanWriteBack sample (at_ 8) 2 (sample.cell (sample.esp + 1).toNat)) :=
  ⟨by decide, ⟨_, rfl, by decide⟩, ⟨_, rfl, by decide⟩, by decide, by decide, by decide⟩

/-- Each outcome: 127 is inside the bound, 128 is not. -/
theorem witness_BoundedCoreAgreesOrRefuses :
    sample.cfg.cellBound = none ∧ (∃ t, exec (.mov (at_ 0) (imm 127)) sampleBounded = .next t ∧ t.cell 0 = 127) ∧
    (∃ t, exec (.mov (at_ 0) (imm 128)) sampleBounded = .next t ∧ t.status = .refused .cellBound) :=
  ⟨rfl, ⟨_, rfl, by decide⟩, ⟨_, rfl, by decide⟩⟩

/-- The last cell, and the first address past it. -/
theorem witness_OperandValuesAndTheirFault :
    (imm 16).addressed = false ∧ ((at_ 15).addressed = true ∧ ((at_ 15).word.toNat : Int) ≤ lastCell small) ∧
    ((at_ 16).addressed = true ∧ lastCell sample.cfg < (at_ 16).word.toNat) ∧
    (Instr.dest? (.inc (at_ 16)) = some (at_ 16)) ∧
    (Instr.dest? (.add (at_ 15) (at_ 16)) = some (at_ 15) ∧ Instr.src? (.add (at_ 15) (at_ 16)) = some (at_ 16) ∧
      resolve sample (at_ 15) = some 20) := by decide

theorem witness_WriteBackOutsideTheImageFaults :
    ((imm 16).addressed = false ∧ lastCell sample.cfg < (imm 16).word.toNat) ∧
    (resolve sample (at_ 1) = some (-2) ∧ (-2 : Int) ≠ 0) ∧ (resolve sample (imm 0) = some 0 ∧ (0 : Int) ≤ 0) ∧
    (0 ≤ sample.esp + 1 ∧ sample.esp + 1 ≤ lastCell sample.cfg) ∧
    (let s : State := { sample with esp := -1 }; 0 ≤ s.esp + 1 ∧ s.esp + 1 ≤ lastCell s.cfg) := by decide

/-- Operands of the binary instructions: a plain destination, the last cell, cell 6; and in a finite realisation a value at the end of
the bound. -/
theorem witness_MovCopiesTheSource :
    (resolve sample (at_ 15) = some 20 ∧ resolve sample (at_ 1) = some (-2) ∧ CanWriteBack sample (at_ 15) 3 (-2)) ∧
    (resolve sample (imm 6) = some 6 ∧ CanWriteBack sample (imm 6) 3 (-2)) ∧
    (resolve sampleBounded (at_ 0) = some 7 ∧ resolve sampleBounded (imm 127) = some 127 ∧ CanWriteBack sampleBounded (at_ 0) 3 127) := by
  decide

theorem witness_AddSubMulAreExact :
    resolve sample (at_ 15) = some 20 ∧ resolve sample (at_ 1) = some (-2) ∧ CanWriteBack sample (at_ 15) 3 (20 + -2) ∧
    CanWriteBack sample (at_ 15) 3 (20 - -2) ∧ CanWriteBack sample (at_ 15) 3 (20 * -2) := by decide

theorem witness_DivTruncatesTowardZero :
    resolve sample (at_ 0) = some 7 ∧ resolve sample (imm 0) = some 0 ∧ resolve sample (at_ 1) = some (-2) ∧
    CanWriteBack sample (at_ 0) 3 (-3) := by decide

theorem witness_AndOrXorAreBitwise :
    resolve sample (at_ 0) = some 7 ∧ resolve sample (at_ 1) = some (-2) ∧ CanWriteBack sample (at_ 0) 3 6 ∧
    CanWriteBack sample (at_ 0) 3 (-1) ∧ CanWriteBack sample (at_ 0) 3 (-7) := by decide

/-- The counts 0 and -1, on the two sides of the refusal. -/
theorem witness_ShiftsAreExact :
    resolve sample (at_ 0) = some 7 ∧ resolve sample (imm 0) = some ((0 : Nat) : Int) ∧ CanWriteBack sample (at_ 0) 3 (7 * 2 ^ 0) ∧
    CanWriteBack sample (at_ 0) 3 7 ∧
    (let s := sample.setCell 1 (-1); resolve s (at_ 0) = some 7 ∧ resolve s (at_ 1) = some (-1) ∧ (-1 : Int) < 0) := by decide

theorem witness_IncDecNotResults :
    resolve sample (at_ 1) = some (-2) ∧ CanWriteBack sample (at_ 1) 2 (-2 + 1) ∧ CanWriteBack sample (at_ 1) 2 (-2 - 1) ∧
    CanWriteBack sample (at_ 1) 2 (- -2 - 1) := by decide

theorem witness_ModRemainderHasSignOfDividend :
    resolve sample (at_ 0) = some 7 ∧ resolve sample (at_ 1) = some (-2) ∧ (-2 : Int) ≠ 0 ∧
    fits sample.cfg (7 - -2 * Int.tdiv 7 (-2)) = true ∧ fits sample.cfg (sample.ip + 3) = true := by decide

theorem witness_ModByZeroFaults : resolve sample (at_ 0) = some 7 ∧ resolve sample (at_ 5) = some 0 := by decide

theorem witness_RemFetchesTheRemainder : resolve sample (at_ 7) = some 0 ∧ CanWriteBack sample (at_ 7) 2 (sample.cell 7) := by decide

theorem witness_CmpSetsFlags :
    resolve sampleBounded (at_ 0) = some 7 ∧ resolve sampleBounded (at_ 1) = some (-2) ∧ fits sampleBounded.cfg 0 = true ∧
    fits sampleBounded.cfg 1 = true ∧ fits sampleBounded.cfg 2 = true ∧ fits sampleBounded.cfg (sampleBounded.ip + 3) = true := by decide

/-- Every condition is met by FLAGS = 0, 1 or 4, for a taken and for an untaken jump. -/
theorem witness_JumpTargetIsTheNewIp :
    resolve sample (at_ 1) = some (-2) ∧ fits sample.cfg (-2) = true ∧
    (let s := sample.setCell 8 1; s.zf = true ∧ s.sf = s.of) ∧ (let s := sample.setCell 8 0; s.zf = false ∧ s.sf = s.of) ∧
    (let s := sample.setCell 8 4; s.zf = false ∧ s.sf ≠ s.of) := by decide

theorem witness_UntakenJumpAdvances :
    resolve sample (imm 40) = some 40 ∧ fits sample.cfg (sample.ip + 2) = true ∧
    (let s := sample.setCell 8 1; s.zf = true ∧ s.sf = s.of) ∧ (let s := sample.setCell 8 0; s.zf = false ∧ s.sf = s.of) ∧
    (let s := sample.setCell 8 2; s.zf = false ∧ s.sf ≠ s.of) := by decide

theorem witness_ConditionsOfTheJumps :
    (resolve sample (imm 40) = some 40 ∧ fits sample.cfg 40 = true ∧ fits sample.cfg (sample.ip + 2) = true) ∧
    (resolve sample (at_ 0) = some 7 ∧ resolve sample (at_ 1) = some (-2) ∧
      ∃ t, exec (.cmp (at_ 0) (at_ 1)) sample = .next t ∧ t.ops = sample.ops + 1) ∧
    ((sample.setCell 8 0).flags = 0 ∧ (sample.setCell 8 1).flags = 1 ∧ (sample.setCell 8 2).flags = 2 ∧ (sample.setCell 8 4).flags = 4) :=
  ⟨by decide, ⟨by decide, by decide, _, rfl, by decide⟩, by decide⟩

/-- `esp` at FLOOR-1, FLOOR and LAST. -/
theorem witness_PushStoresAndDecrements :
    sample.cfg.Legal ∧ resolve sample (imm 9) = some 9 ∧
    (let s : State := { sample with esp := 12 }; s.esp < stackFloor s.cfg) ∧
    (let s : State := { sample with esp := 13 };
      stackFloor s.cfg ≤ s.esp ∧ s.esp ≤ lastCell s.cfg ∧ fits s.cfg 9 = true ∧ fits s.cfg (s.esp - 1) = true ∧
        fits s.cfg (s.ip + 2) = true) ∧
    (let s : State := { sample with esp := 15 }; stackFloor s.cfg ≤ s.esp ∧ s.esp ≤ lastCell s.cfg) := by decide

/-- An empty stack; a full one; and a destination of cell 6. -/
theorem witness_PopLoadsAndIncrements :
    (let s : State := { sample with esp := 15 }; resolve s (at_ 0) = some 7 ∧ lastCell s.cfg < s.esp + 1) ∧
    (resolve sample (at_ 6) = some 0 ∧ 0 ≤ sample.esp + 1 ∧ sample.esp + 1 ≤ lastCell sample.cfg ∧
      fits sample.cfg (sample.esp + 1) = true ∧ CanWriteBack sample (at_ 6) 2 (sample.cell (sample.esp + 1).toNat)) ∧
    (let s : State := { sample with esp := 12 };
      0 ≤ s.esp + 1 ∧ s.esp + 1 ≤ lastCell s.cfg ∧ CanWriteBack s (at_ 15) 2 (s.cell (s.esp + 1).toNat)) := by decide

theorem witness_CallPushesReturnAddress :
    sample.cfg.Legal ∧ resolve sample (at_ 15) = some 20 ∧
    (let s : State := { sample with esp := 12 }; s.esp < stackFloor s.cfg) ∧
    (let s : State := { sample with esp := 15 };
      stackFloor s.cfg ≤ s.esp ∧ s.esp ≤ lastCell s.cfg ∧ fits s.cfg 20 = true ∧ fits s.cfg (s.esp - 1) = true ∧
        fits s.cfg (s.ip + 2) = true) ∧
    (let s : State := { sample with esp := 13 }; stackFloor s.cfg ≤ s.esp ∧ s.esp ≤ lastCell s.cfg) := by decide

theorem witness_RetPopsIntoIp :
    (let s : State := { sample with esp := 15 }; lastCell s.cfg < s.esp + 1) ∧
    (0 ≤ sample.esp + 1 ∧ sample.esp + 1 ≤ lastCell sample.cfg ∧ fits sample.cfg (sample.esp + 1) = true ∧
      fits sample.cfg (sample.cell (sample.esp + 1).toNat) = true) := by decide

theorem witness_NopOnlyAdvances : fits sampleBounded.cfg (sampleBounded.ip + 1) = true := by decide

theorem witness_PrnEmitsItsOperand :
    resolve sampleBounded (imm 127) = some 127 ∧ fits sampleBounded.cfg 127 = true ∧
    fits sampleBounded.cfg (sampleBounded.ip + 2) = true := by decide

/-- `esp` at both ends of the range, and the destinations 15 and 6. -/
theorem witness_StackReturnsWhatWasPushed :
    sample.cfg.Legal ∧ sample.cfg.cellBound = none ∧ resolve sample (at_ 0) = some 7 ∧
    (let s : State := { sample with esp := 13 }; stackFloor s.cfg ≤ s.esp ∧ s.esp ≤ lastCell s.cfg) ∧
    (let s : State := { sample with esp := 15 }; stackFloor s.cfg ≤ s.esp ∧ s.esp ≤ lastCell s.cfg) ∧
    ((at_ 15).word.toNat : Int) ≤ lastCell sample.cfg ∧ (at_ 15).word.toNat ≠ 6 ∧ (at_ 6).word.toNat = 6 := by decide

theorem witness_StackHoldsStackSizePlusOne :
    (board small [] []).cfg.Legal ∧ (board small [] []).cfg.cellBound = none ∧ (board small [] []).depth = 0 ∧
    ∃ t, execTimes (.push (imm 9)) (small.stackSize + 1) (board small [] []) = some t :=
  ⟨by decide, rfl, by decide, _, rfl⟩

theorem witness_LinkedNodesDecodeBack :
    defaultOpc.Injective ∧ ∃ ws, linkWords defaultOpc [⟨some "start", "jmp", [.labelRef "start"]⟩] = .ok ws ∧ ws.length = 4 :=
  ⟨by decide, _, rfl, by decide⟩

theorem witness_LinkedOperandWords :
    let ns : List Node := [plain "mov" [.register "edi", .labelRef "t"], ⟨some "t", "jmp", [.memoryOffset 4294967295]⟩]
    (∃ ws, linkWords defaultOpc ns = .ok ws) ∧
    withStart ns = [] ++ plain "mov" [.register "edi", .labelRef "t"] :: [⟨some "t", "jmp", [.memoryOffset 4294967295]⟩] :=
  ⟨⟨_, rfl⟩, rfl⟩

theorem witness_UndefinedLabelFailsTheLink :
    let ns : List Node := [plain "jmp" [.labelRef "x"], plain "jmp" [.labelRef "y"]]
    ((∀ n ∈ withStart ns, n.Accepted) ∧ ∃ l, UsesLabel (withStart ns) l ∧ ¬ DefinesLabel (withStart ns) l) ∧
    linkWords defaultOpc [plain "jmp" [.labelRef "nowhere"]] = .error (.undefinedLabel "nowhere") ∧
    (let ok : List Node := [⟨some "a", "jmp", [.labelRef "a"]⟩];
      (∀ n ∈ withStart ok, n.Accepted) ∧ (∀ l, UsesLabel (withStart ok) l → DefinesLabel (withStart ok) l) ∧
        wordCount (withStart ok) ≤ 2 ^ 32) := by
  refine ⟨⟨?_, "x", ⟨_, List.mem_cons_self, by decide⟩, ?_⟩, rfl, ?_, ?_, by decide⟩
  rotate_left 2
  · intro n hn
    obtain rfl : n = ⟨some "a", "jmp", [.labelRef "a"]⟩ := by simpa [withStart] using hn
    exact ⟨.jmp, rfl, rfl, rfl⟩
  · rintro l ⟨n, hn, h⟩
    obtain rfl : n = ⟨some "a", "jmp", [.labelRef "a"]⟩ := by simpa [withStart] using hn
    obtain rfl : l = "a" := by simpa using h
    exact ⟨_, hn, rfl⟩
  · intro n hn
    have h : n = plain "jmp" [.labelRef "x"] ∨ n = plain "jmp" [.labelRef "y"] := by simpa [withStart, plain] using hn
    rcases h with rfl | rfl <;> exact ⟨.jmp, rfl, rfl, rfl⟩
  · rintro ⟨n, hn, h⟩
    have h' : n = plain "jmp" [.labelRef "x"] ∨ n = plain "jmp" [.labelRef "y"] := by simpa [withStart, plain] using hn
    rcases h' with rfl | rfl <;> cases h

/-- Each way to break the contract. -/
theorem witness_BreaksContract :
    BreaksContract .inc [] ∧ BreaksContract .mov [.literal 5, .register "eax"] ∧ BreaksContract .pop [.labelRef "a"] ∧
    BreaksContract .push [.register "esp"] ∧ ¬ BreaksContract .mov [.register "edi", .labelRef "a"] ∧
    ¬ BreaksContract .push [.literal (-1)] := by
  simp [BreaksContract, Mnemonic.arity, Mnemonic.writesDest]

/-- An accepted node before an offending one, and the values -1 and 2^32 on the two sides of the range. -/
theorem witness_FirstOffendingNodeIsReported :
    (withStart [plain "nop" [], plain "foo" []] = [plain "nop" []] ++ plain "foo" [] :: [] ∧ (∀ p ∈ [plain "nop" []], p.Accepted) ∧
      ∀ m, mnemonicName m ≠ (plain "foo" []).mnemonic) ∧
    (mnemonicName .inc = (plain "inc" []).mnemonic ∧ BreaksContract .inc (plain "inc" []).operands) ∧
    (mnemonicName .push = (plain "push" [.literal (-1)]).mnemonic ∧ ¬ BreaksContract .push (plain "push" [.literal (-1)]).operands ∧
      ∃ v, (v < 0 ∨ 2 ^ 32 ≤ v) ∧ (.literal v ∈ (plain "push" [.literal (-1)]).operands ∨
        .memoryOffset v ∈ (plain "push" [.literal (-1)]).operands)) ∧
    (¬ BreaksContract .push (plain "push" [.memoryOffset 4294967296]).operands ∧
      ∃ v, (v < 0 ∨ 2 ^ 32 ≤ v) ∧ (.literal v ∈ (plain "push" [.memoryOffset 4294967296]).operands ∨
        .memoryOffset v ∈ (plain "push" [.memoryOffset 4294967296]).operands)) := by
  refine ⟨⟨rfl, ?_, ?_⟩, ⟨rfl, .inl (by decide)⟩, ⟨by decide, ?_, -1, by decide, by decide⟩, ?_, 4294967296, by decide, by decide⟩
  · intro p hp
    obtain rfl : p = plain "nop" [] := by simpa using hp
    exact ⟨.nop, rfl, rfl, rfl⟩
  · intro m; cases m <;> decide
  · simp [BreaksContract, plain, Mnemonic.arity, Mnemonic.writesDest]
  · simp [BreaksContract, plain, Mnemonic.arity, Mnemonic.writesDest]

theorem witness_StartLabelIsTheEntryPoint :
    let ns : List Node := [plain "nop" [], ⟨some "start", "nop", []⟩]
    defaultOpc.Injective ∧ (∃ ws, linkWords defaultOpc ns = .ok ws) ∧ DefinesLabel ns "start" ∧ ¬ DefinesLabel [plain "nop" []] "start" :=
  ⟨by decide, ⟨_, rfl⟩, ⟨_, .tail _ (.head _), rfl⟩, by simp [DefinesLabel, plain]⟩

end Sys2Proof.Tests
end

/-! SUPPORT. What an instruction and a step leave unchanged in every case, read off `exec_cases` and `step_cases`: the program image
and the configuration (10_state.md R40, R281), the output of every instruction but `prn` (R39), the stack pointer of every instruction
that does not use the stack (R31). -/

namespace Sys2Proof.Machine

variable {i : Instr} {s t : State}

/-- No instruction writes the program image or the configuration. -/
theorem exec_image_cfg (h : exec i s = .next t) : t.image = s.image ∧ t.cfg = s.cfg := by
  cases exec_cases h <;> exact ⟨rfl, rfl⟩

/-- An instruction leaves the output as it is, or it is a `prn` that appended its operand's value. -/
theorem exec_output (h : exec i s = .next t) :
    t.output = s.output ∨ ∃ dest v, i = .prn dest ∧ resolve s dest = some v ∧ t.output = s.output ++ [v] := by
  cases exec_cases h with
  | done w ip esp out hw hip hesp hout =>
    exact hout.imp_right (fun ⟨dest, v, hi, hv, ho, _⟩ => ⟨dest, v, hi, hv, ho⟩)
  | _ => exact .inl rfl

/-- The instructions that move the stack pointer (10_state.md R31). -/
def UsesStack (i : Instr) : Prop := (i.mnemonic = .push ∨ i.mnemonic = .call) ∨ (i.mnemonic = .pop ∨ i.mnemonic = .ret)

/-- An instruction that does not use the stack leaves the stack pointer as it is. -/
theorem exec_esp (h : exec i s = .next t) (hi : ¬ UsesStack i) : t.esp = s.esp := by
  cases exec_cases h with
  | done w ip esp out hw hip hesp hout =>
    rcases hesp with hesp | ⟨⟨hpush, -⟩ | ⟨hpop, -⟩, -⟩
    · exact hesp
    · exact absurd (.inl hpush) hi
    · exact absurd (.inr hpop) hi
  | emptyStack hpop => exact absurd (.inr hpop) hi
  | popOutOfRange hpop => exact absurd (.inr (hpop.elim And.left .inl)) hi
  | _ => rfl

/-- A step executes the instruction it fetched, or it changes at most the status. -/
theorem step_runs_or_stops (h : step s = .next t) :
    (∃ i, fetch s = .ok i ∧ exec i s = .next t) ∨ ∃ st, t = s.setStatus st := by
  rcases step_cases h with ⟨-, hc⟩ | ⟨-, rfl⟩
  · cases hc with
    | run i h0 hlt hf he => exact .inl ⟨i, hf, he⟩
    | halt | negativeIp | invalid => exact .inr ⟨_, rfl⟩
  · exact .inr ⟨t.status, rfl⟩

/-- Settles O17: an executed instruction writes neither, and every other step changes at most the status. -/
theorem programImageIsNeverWritten : Obligations.ProgramImageIsNeverWritten := by
  intro s t h
  rcases step_runs_or_stops h with ⟨i, -, he⟩ | ⟨st, rfl⟩
  · exact exec_image_cfg he
  · exact ⟨rfl, rfl⟩

end Sys2Proof.Machine

/-! SUPPORT. What is known of an instruction that completed, that is one after which the operation counter is one higher (30_encoding.md
R97): each shared operation took its normal case. -/

namespace Sys2Proof.Machine

variable {s t u : State}

/-- What takes a fault does not count as an operation. -/
theorem raise_not_counted {f : Fault} (h : raise f t = .next u) (hops : u.ops = s.ops + 1) (ht : t.ops = s.ops) : False := by
  cases h
  simp [ht] at hops

/-- An operand of an instruction that completed has a value. -/
theorem withDest_completed {dest : Operand} {k : Int → Result} (h : withDest s dest k = .next u) (hops : u.ops = s.ops + 1) :
    ∃ d, resolve s dest = some d ∧ k d = .next u := by
  rcases hd : resolve s dest with _ | d
  · rw [withDest_none k hd] at h
    exact (raise_not_counted h hops rfl).elim
  · rw [withDest_eq k hd] at h
    exact ⟨d, rfl, h⟩

/-- `complete` was not refused. -/
theorem complete_completed {w : List Int} (h : complete s t w = .next u) (hops : u.ops = s.ops + 1) : u = t.countOp := by
  rcases complete_cases s t w with ⟨e, -⟩ | ⟨e, -⟩
  · exact (Host.Outcome.next.inj (e.symm.trans h)).symm
  · cases e.symm.trans h
    simp at hops

/-- The write-back was made. -/
theorem writeBackFrom_completed {dest : Operand} {len : Nat} {v : Int} {w : List Int}
    (h : writeBackFrom s t dest len v w = .next u) (hops : u.ops = s.ops + 1) (ht : t.ops = s.ops) :
    u = ((t.setCell dest.word.toNat v).advance len).countOp := by
  rcases hr : inRange t.cfg dest.word.toNat with _ | _
  · rw [writeBackFrom_none hr] at h
    exact (raise_not_counted h hops ht).elim
  · rw [writeBackFrom_eq hr] at h
    exact complete_completed h hops

/-- A push to a cell that does not exist. -/
theorem pushThen_outOfRange {v : Int} (k : State → Result) (hf : ¬ s.esp < stackFloor s.cfg) (hr : inRange s.cfg s.esp = false) :
    pushThen s v k = raise .outOfRange s := by
  simp [pushThen, hf, memWrite_none hr]

/-- A pop of a cell that does not exist. -/
theorem popThen_outOfRange (k : State → Int → Result) (hl : ¬ lastCell s.cfg < s.esp + 1) (h0 : ¬ 0 ≤ s.esp + 1) :
    popThen s k = raise .outOfRange (s.setEsp (s.esp + 1)) := by
  simp [popThen, hl, memRead, inRange, h0]

/-- The value was pushed, and `esp` went down by one. -/
theorem pushThen_completed {v : Int} {k : State → Result} (h : pushThen s v k = .next u) (hops : u.ops = s.ops + 1) :
    k ((s.setCell s.esp.toNat v).setEsp (s.esp - 1)) = .next u := by
  by_cases hf : s.esp < stackFloor s.cfg
  · rw [pushThen_overflow k hf] at h
    exact (raise_not_counted h hops rfl).elim
  rcases hr : inRange s.cfg s.esp with _ | _
  · rw [pushThen_outOfRange k hf hr] at h
    exact (raise_not_counted h hops rfl).elim
  · rwa [pushThen_eq k (not_lt.1 hf) hr] at h

/-- A value was popped, and `esp` went up by one. -/
theorem popThen_completed {k : State → Int → Result} (h : popThen s k = .next u) (hops : u.ops = s.ops + 1) :
    k (s.setEsp (s.esp + 1)) (s.cell (s.esp + 1).toNat) = .next u := by
  by_cases hl : lastCell s.cfg < s.esp + 1
  · rw [popThen_empty k hl] at h
    exact (raise_not_counted h hops rfl).elim
  by_cases h0 : 0 ≤ s.esp + 1
  · rwa [popThen_eq k h0 (not_lt.1 hl)] at h
  · rw [popThen_outOfRange k hl h0] at h
    exact (raise_not_counted h hops rfl).elim

/-! ## The instructions of the stack, and `prn` -/

/-- A `push` that completed lowered `esp` by one. -/
theorem push_esp {dest : Operand} (h : exec (.push dest) s = .next t) (hops : t.ops = s.ops + 1) : t.esp = s.esp - 1 := by
  obtain ⟨d, -, hk⟩ := withDest_completed h hops
  rw [complete_completed (pushThen_completed hk hops) hops]
  rfl

/-- A `call` that completed lowered `esp` by one. -/
theorem call_esp {dest : Operand} (h : exec (.call dest) s = .next t) (hops : t.ops = s.ops + 1) : t.esp = s.esp - 1 := by
  obtain ⟨d, -, hk⟩ := withDest_completed h hops
  rw [complete_completed (pushThen_completed hk hops) hops]
  rfl

/-- A `pop` that completed raised `esp` by one. -/
theorem pop_esp {dest : Operand} (h : exec (.pop dest) s = .next t) (hops : t.ops = s.ops + 1) : t.esp = s.esp + 1 := by
  obtain ⟨d, -, hk⟩ := withDest_completed h hops
  rw [writeBackFrom_completed (popThen_completed hk hops) hops rfl]
  rfl

/-- `ret` is a pop into `ip`. -/
theorem exec_ret (s : State) : exec .ret s = popThen s (fun u v => complete s (u.setIp v) [u.esp]) := rfl

/-- A `ret` that completed raised `esp` by one. -/
theorem ret_esp (h : exec .ret s = .next t) (hops : t.ops = s.ops + 1) : t.esp = s.esp + 1 := by
  rw [exec_ret] at h
  rw [complete_completed (popThen_completed h hops) hops]
  rfl

/-- A `prn` that completed appended its operand's value. -/
theorem prn_output {dest : Operand} (h : exec (.prn dest) s = .next t) (hops : t.ops = s.ops + 1) :
    ∃ v, resolve s dest = some v ∧ t.output = s.output ++ [v] := by
  obtain ⟨v, hv, hk⟩ := withDest_completed h hops
  refine ⟨v, hv, ?_⟩
  rw [complete_completed hk hops]
  rfl

/-! ## The stack depth (10_state.md R34) -/

/-- The stack depth changes by as much as the stack pointer, the other way. -/
theorem exec_depth {i : Instr} (h : exec i s = .next t) : t.depth = s.depth - (t.esp - s.esp) := by
  simp only [State.depth, (exec_image_cfg h).2]
  omega

/-- Settles O21: by the instruction, the four of the stack one by one and the others by `exec_esp`. -/
theorem stackDepthCountsPushes : Obligations.StackDepthCountsPushes := by
  refine ⟨fun _ => rfl, fun c p => by simp [State.depth, State.initial, lastCell], fun i s t h hops => ?_⟩
  have hd := exec_depth h
  cases i with
  | push dest =>
    have he := push_esp h hops
    exact .inl ⟨.inl ⟨dest, rfl⟩, by omega⟩
  | call dest =>
    have he := call_esp h hops
    exact .inl ⟨.inr ⟨dest, rfl⟩, by omega⟩
  | pop dest =>
    have he := pop_esp h hops
    exact .inr (.inl ⟨.inl ⟨dest, rfl⟩, by omega⟩)
  | ret =>
    have he := ret_esp h hops
    exact .inr (.inl ⟨.inr rfl, by omega⟩)
  | _ =>
    have he := exec_esp h (by simp [UsesStack, Instr.mnemonic])
    exact .inr (.inr ⟨by simp, by simp, by omega⟩)

end Sys2Proof.Machine

/-! SUPPORT. No instruction reads the output (10_state.md R39): with more output before, every shared operation and so every instruction
gives the same answer with that output before it. -/

namespace Sys2Proof.Machine

/-- The state with `out` before its output. -/
def State.prependOutput (out : List Int) (s : State) : State := { s with output := out ++ s.output }

/-- The answer with `out` before the output of the next state. -/
def prependResult (out : List Int) : Result → Result
  | .next t => .next (t.prependOutput out)
  | .fault f => .fault f
  | .refused r => .refused r

variable (out : List Int) (s t : State)

theorem State.prependOutput_blank : ({ s with output := [] } : State).prependOutput out = { s with output := out } := by
  simp [State.prependOutput]

/-! ## The shared operations -/

theorem State.emit_prependOutput (v : Int) : (s.prependOutput out).emit v = (s.emit v).prependOutput out := by
  simp [State.emit, State.prependOutput]

/-- A test that does not read the output. -/
theorem ite_prependOutput {out : List Int} {c : Prop} [Decidable c] {a a' b b' : Result} (ha : a' = prependResult out a)
    (hb : b' = prependResult out b) : (if c then a' else b') = prependResult out (if c then a else b) := by
  rw [ha, hb, apply_ite (prependResult out)]

theorem complete_prependOutput (w : List Int) :
    complete (s.prependOutput out) (t.prependOutput out) w = prependResult out (complete s t w) :=
  ite_prependOutput (c := (t.ip :: w).all (fits s.cfg) = true) rfl rfl

theorem completeAdvance_prependOutput (len : Nat) (w : List Int) :
    completeAdvance (s.prependOutput out) (t.prependOutput out) len w = prependResult out (completeAdvance s t len w) :=
  complete_prependOutput out s (t.advance len) w

theorem writeBackFrom_prependOutput (dest : Operand) (len : Nat) (v : Int) (w : List Int) :
    writeBackFrom (s.prependOutput out) (t.prependOutput out) dest len v w =
      prependResult out (writeBackFrom s t dest len v w) := by
  rcases hr : inRange t.cfg dest.word.toNat with _ | _
  · rw [writeBackFrom_none hr, writeBackFrom_none (t := t.prependOutput out) hr]
    rfl
  · rw [writeBackFrom_eq hr, writeBackFrom_eq (t := t.prependOutput out) hr]
    exact completeAdvance_prependOutput out s (t.setCell dest.word.toNat v) len (v :: w)

theorem writeBack_prependOutput (dest : Operand) (len : Nat) (v : Int) :
    writeBack (s.prependOutput out) dest len v = prependResult out (writeBack s dest len v) :=
  writeBackFrom_prependOutput out s s dest len v []

variable {out s}

theorem withDest_prependOutput {dest : Operand} {k k' : Int → Result} (hk : ∀ d, k' d = prependResult out (k d)) :
    withDest (s.prependOutput out) dest k' = prependResult out (withDest s dest k) := by
  rcases hd : resolve s dest with _ | d
  · rw [withDest_none k hd, withDest_none (s := s.prependOutput out) k' hd]
    rfl
  · rw [withDest_eq k hd, withDest_eq (s := s.prependOutput out) k' hd, hk]

theorem withOperands_prependOutput {dest src : Operand} {k k' : Int → Int → Result}
    (hk : ∀ d v, k' d v = prependResult out (k d v)) :
    withOperands (s.prependOutput out) dest src k' = prependResult out (withOperands s dest src k) :=
  withDest_prependOutput (fun d => withDest_prependOutput (hk d))

theorem pushThen_prependOutput {v : Int} {k k' : State → Result} (hk : ∀ u, k' (u.prependOutput out) = prependResult out (k u)) :
    pushThen (s.prependOutput out) v k' = prependResult out (pushThen s v k) := by
  by_cases hf : s.esp < stackFloor s.cfg
  · rw [pushThen_overflow k hf, pushThen_overflow (s := s.prependOutput out) k' hf]
    rfl
  rcases hr : inRange s.cfg s.esp with _ | _
  · rw [pushThen_outOfRange k hf hr, pushThen_outOfRange (s := s.prependOutput out) k' hf hr]
    rfl
  · rw [pushThen_eq k (not_lt.1 hf) hr, pushThen_eq (s := s.prependOutput out) k' (not_lt.1 hf) hr]
    exact hk ((s.setCell s.esp.toNat v).setEsp (s.esp - 1))

theorem popThen_prependOutput {k k' : State → Int → Result}
    (hk : ∀ u v, k' (u.prependOutput out) v = prependResult out (k u v)) :
    popThen (s.prependOutput out) k' = prependResult out (popThen s k) := by
  by_cases hl : lastCell s.cfg < s.esp + 1
  · rw [popThen_empty k hl, popThen_empty (s := s.prependOutput out) k' hl]
    rfl
  by_cases h0 : 0 ≤ s.esp + 1
  · rw [popThen_eq k h0 (not_lt.1 hl), popThen_eq (s := s.prependOutput out) k' h0 (not_lt.1 hl)]
    exact hk (s.setEsp (s.esp + 1)) (s.cell (s.esp + 1).toNat)
  · rw [popThen_outOfRange k hl h0, popThen_outOfRange (s := s.prependOutput out) k' hl h0]
    rfl

theorem jumpIf_prependOutput {c : State → Bool} {dest : Operand} (hc : c (s.prependOutput out) = c s) :
    jumpIf c dest (s.prependOutput out) = prependResult out (jumpIf c dest s) := by
  refine withDest_prependOutput (fun d => ?_)
  rw [hc]
  exact ite_prependOutput (complete_prependOutput out s (s.setIp d) []) (completeAdvance_prependOutput out s s 2 [])

/-! ## The instructions -/

variable (out s)

/-- No instruction reads the output. -/
theorem exec_prependOutput (i : Instr) : exec i (s.prependOutput out) = prependResult out (exec i s) := by
  cases i with
  | nop => exact completeAdvance_prependOutput out s s 1 []
  | mov dest src => exact withOperands_prependOutput (fun d v => writeBack_prependOutput out s dest 3 v)
  | cmp dest src =>
    exact withOperands_prependOutput (fun d v => completeAdvance_prependOutput out s (s.setCell 8 (cmpFlags d v)) 3 _)
  | jmp dest => exact withDest_prependOutput (fun d => complete_prependOutput out s (s.setIp d) [])
  | je dest => exact jumpIf_prependOutput (c := condE) rfl
  | jne dest => exact jumpIf_prependOutput (c := condNe) rfl
  | jl dest => exact jumpIf_prependOutput (c := condL) rfl
  | jle dest => exact jumpIf_prependOutput (c := condLe) rfl
  | jg dest => exact jumpIf_prependOutput (c := condG) rfl
  | jge dest => exact jumpIf_prependOutput (c := condGe) rfl
  | mod dest src =>
    exact withOperands_prependOutput (fun d v =>
      ite_prependOutput rfl (completeAdvance_prependOutput out s (s.setCell 7 (tmod d v)) 3 _))
  | rem dest => exact withDest_prependOutput (fun _ => writeBack_prependOutput out s dest 2 s.remainder)
  | inc dest => exact withDest_prependOutput (fun d => writeBack_prependOutput out s dest 2 _)
  | dec dest => exact withDest_prependOutput (fun d => writeBack_prependOutput out s dest 2 _)
  | not dest => exact withDest_prependOutput (fun d => writeBack_prependOutput out s dest 2 _)
  | add dest src => exact withOperands_prependOutput (fun d v => writeBack_prependOutput out s dest 3 _)
  | sub dest src => exact withOperands_prependOutput (fun d v => writeBack_prependOutput out s dest 3 _)
  | mul dest src => exact withOperands_prependOutput (fun d v => writeBack_prependOutput out s dest 3 _)
  | div dest src =>
    exact withOperands_prependOutput (fun d v => ite_prependOutput rfl (writeBack_prependOutput out s dest 3 _))
  | and dest src => exact withOperands_prependOutput (fun d v => writeBack_prependOutput out s dest 3 _)
  | or dest src => exact withOperands_prependOutput (fun d v => writeBack_prependOutput out s dest 3 _)
  | xor dest src => exact withOperands_prependOutput (fun d v => writeBack_prependOutput out s dest 3 _)
  | shl dest src =>
    exact withOperands_prependOutput (fun d v => ite_prependOutput rfl (writeBack_prependOutput out s dest 3 _))
  | shr dest src =>
    exact withOperands_prependOutput (fun d v => ite_prependOutput rfl (writeBack_prependOutput out s dest 3 _))
  | push dest =>
    exact withDest_prependOutput (fun d => pushThen_prependOutput (fun u => completeAdvance_prependOutput out s u 2 [d, u.esp]))
  | pop dest =>
    exact withDest_prependOutput (fun _ => popThen_prependOutput (fun u v => writeBackFrom_prependOutput out s u dest 2 v [u.esp]))
  | call dest =>
    exact withDest_prependOutput (fun d =>
      pushThen_prependOutput (fun u => complete_prependOutput out s (u.setIp d) [s.ip + 2, u.esp]))
  | ret =>
    rw [exec_ret, exec_ret]
    exact popThen_prependOutput (fun u v => complete_prependOutput out s (u.setIp v) [u.esp])
  | prn dest =>
    refine withDest_prependOutput (fun d => ?_)
    rw [State.emit_prependOutput]
    exact completeAdvance_prependOutput out s (s.emit d) 2 [d]

variable {s t}

/-- What an instruction appends to the output does not depend on the output before, and neither does anything else it leaves: both
answers come from the state with an empty output. -/
theorem exec_with_output {i : Instr} (h : exec i s = .next t) :
    ∃ more, t.output = s.output ++ more ∧ exec i { s with output := out } = .next { t with output := out ++ more } := by
  obtain ⟨u, hu, -⟩ := exec_answers i { s with output := [] }
  have answer : ∀ o, exec i { s with output := o } = .next (u.prependOutput o) := fun o => by
    rw [← State.prependOutput_blank, exec_prependOutput, hu, prependResult]
  have ht : t = u.prependOutput s.output := Host.Outcome.next.inj (h.symm.trans (answer s.output))
  subst ht
  exact ⟨u.output, rfl, answer out⟩

/-- Settles O18: the step by `exec_output`, the completed `prn` by `prn_output`, the independence by `exec_with_output`. -/
theorem onlyPrnExtendsOutput : Obligations.OnlyPrnExtendsOutput := by
  refine ⟨fun _ _ => rfl, fun s t h => ?_, fun s t dest => prn_output, fun i s t out => exec_with_output out⟩
  rcases step_runs_or_stops h with ⟨i, hf, he⟩ | ⟨st, rfl⟩
  · refine (exec_output he).imp_right ?_
    rintro ⟨dest, v, rfl, hv, ho⟩
    exact ⟨dest, v, hf, hv, ho⟩
  · exact .inl rfl

end Sys2Proof.Machine

/-! SUPPORT. The program image as bytes (20_memory.md R52, R53): four bytes and a word determine each other, so a buffer reads as `ws`
exactly when it is the buffer of `ws`. -/
namespace Sys2Proof

variable {b0 b1 b2 b3 : Byte} {bytes : List Byte} {w : Word} {ws : List Word}

/-- R52's sum of four bytes is below `2 ^ 32`, so the word holds it exactly. -/
theorem wordOfBytes_toNat : (wordOfBytes b0 b1 b2 b3).toNat =
    b0.toNat + 256 * b1.toNat + 65536 * b2.toNat + 16777216 * b3.toNat := by
  rw [wordOfBytes, BitVec.toNat_ofNat]
  exact Nat.mod_eq_of_lt (by omega)

/-- The four bytes of a word are its digits to base 256, and R52's sum puts them together again. -/
theorem wordOfBytes_extractLsb' :
    wordOfBytes (w.extractLsb' 0 8) (w.extractLsb' 8 8) (w.extractLsb' 16 8) (w.extractLsb' 24 8) = w := by
  apply BitVec.eq_of_toNat_eq
  simp only [wordOfBytes_toNat, BitVec.extractLsb'_toNat, Nat.shiftRight_eq_div_pow]
  omega

/-- The digits to base 256 of R52's sum are its four bytes. -/
theorem bytesOfWord_wordOfBytes : bytesOfWord (wordOfBytes b0 b1 b2 b3) = [b0, b1, b2, b3] := by
  simp only [bytesOfWord, List.cons.injEq, and_true, ← BitVec.toNat_inj, BitVec.extractLsb'_toNat, Nat.shiftRight_eq_div_pow,
    wordOfBytes_toNat]
  omega

@[simp] theorem wordsOfBytes_nil : wordsOfBytes [] = some [] := rfl

@[simp] theorem wordsOfBytes_fourBytes :
    wordsOfBytes (b0 :: b1 :: b2 :: b3 :: bytes) = (wordsOfBytes bytes).map (wordOfBytes b0 b1 b2 b3 :: ·) := rfl

@[simp] theorem bytesOfWords_nil : bytesOfWords [] = [] := rfl

@[simp] theorem bytesOfWords_cons : bytesOfWords (w :: ws) = bytesOfWord w ++ bytesOfWords ws := rfl

@[simp] theorem bytesOfWord_length : (bytesOfWord w).length = 4 := rfl

@[simp] theorem wordsOfBytes_bytesOfWord_append :
    wordsOfBytes (bytesOfWord w ++ bytes) = (wordsOfBytes bytes).map (w :: ·) := by
  simp [bytesOfWord, wordOfBytes_extractLsb']

theorem wordsOfBytes_bytesOfWords (ws : List Word) : wordsOfBytes (bytesOfWords ws) = some ws := by
  induction ws with
  | nil => simp
  | cons w ws ih => simp [ih]

theorem bytesOfWords_length (ws : List Word) : (bytesOfWords ws).length = 4 * ws.length := by
  induction ws with
  | nil => simp
  | cons w ws ih => simp [ih]; omega

/-- The only buffer that reads as `ws` is the buffer of `ws`. -/
theorem eq_bytesOfWords_of_wordsOfBytes (h : wordsOfBytes bytes = some ws) : bytes = bytesOfWords ws := by
  induction bytes using wordsOfBytes.induct generalizing ws with
  | case1 => cases h; rfl
  | case2 b0 b1 b2 b3 rest ih =>
    obtain ⟨tail, htail, rfl⟩ := Option.map_eq_some_iff.mp h
    simp [bytesOfWord_wordOfBytes, ← ih htail]
  | case3 => simp [wordsOfBytes] at h

/-- R52's formula for word `i`: the first word is the sum of its own bytes, and a word further on is four bytes further on. -/
theorem getD_toNat_eq_bytesOfWords (ws : List Word) (i : Nat) (hi : i < ws.length) : (ws.getD i 0).toNat =
    ((bytesOfWords ws).getD (4 * i) 0).toNat + 256 * ((bytesOfWords ws).getD (4 * i + 1) 0).toNat +
    65536 * ((bytesOfWords ws).getD (4 * i + 2) 0).toNat + 16777216 * ((bytesOfWords ws).getD (4 * i + 3) 0).toNat := by
  induction ws generalizing i with
  | nil => contradiction
  | cons w ws ih =>
    cases i with
    | zero => exact (congrArg BitVec.toNat wordOfBytes_extractLsb').symm.trans wordOfBytes_toNat
    | succ i => exact ih i (Nat.lt_of_succ_lt_succ hi)

/-- Settles O9: the round trip by induction on the words; an accepted buffer is the buffer of its words, where the length and R52's
formula are known. -/
theorem imageBytesRoundTrip : Obligations.ImageBytesRoundTrip := by
  refine ⟨fun ws => ⟨wordsOfBytes_bytesOfWords ws, bytesOfWords_length ws⟩, fun bytes ws h => ?_⟩
  obtain rfl := eq_bytesOfWords_of_wordsOfBytes h
  exact ⟨bytesOfWords_length ws, getD_toNat_eq_bytesOfWords ws⟩

end Sys2Proof

/-! SUPPORT. The decoder (30_encoding.md R72, R79, R88, R91): what it accepts and as what, the mnemonic an opcode number names, and the
bits of an opcode word. -/
namespace Sys2Proof

variable {o : OpcMap} {w w' : Word} {rest : List Word} {i : Instr} {m : Mnemonic}

/-! ## The instruction built from a mnemonic and two operands -/

/-- The destination is there in every format but the one without operands (30_encoding.md R74). -/
theorem buildInstr_dest? (m : Mnemonic) (dest src : Operand) :
    (buildInstr m dest src).dest? = if 1 ≤ m.arity then some dest else none := by cases m <;> rfl

/-- The source is there in the format of two operands only (30_encoding.md R74). -/
theorem buildInstr_src? (m : Mnemonic) (dest src : Operand) :
    (buildInstr m dest src).src? = if m.arity = 2 then some src else none := by cases m <;> rfl

/-! ## The bits of an opcode word -/

/-- `OP` as the slice of bits 7..0. -/
theorem opField_eq_extractLsb' (w : Word) : opField w = w.extractLsb' 0 8 := BitVec.setWidth_eq_extractLsb' (by decide)

/-- Bit `k` of `OP` is bit `k` of the word. -/
theorem opField_getLsbD {k : Nat} (hk : k < 8) : (opField w).getLsbD k = w.getLsbD k := by
  simp [opField, hk]

/-- Bit 11, `DD`: the destination is there and direct (30_encoding.md R70, R71). -/
theorem destDirect_opcodeWord (op : BitVec 8) (d s : Option Bool) : (opcodeWord op d s).getLsbD 11 = (d == some false) := by
  revert op; rcases d with _ | _ | _ <;> rcases s with _ | _ | _ <;> decide

/-- Bit 9, `SD`: the source is there and direct (30_encoding.md R70, R71). -/
theorem srcDirect_opcodeWord (op : BitVec 8) (d s : Option Bool) : (opcodeWord op d s).getLsbD 9 = (s == some false) := by
  revert op; rcases d with _ | _ | _ <;> rcases s with _ | _ | _ <;> decide

/-- Bits 10 and 11 of a destination that is there: exactly the one of its kind is 1. -/
theorem opcodeWord_destBits (op : BitVec 8) (addressed : Bool) (s : Option Bool) :
    (opcodeWord op (some addressed) s).getLsbD 10 = addressed ∧ (opcodeWord op (some addressed) s).getLsbD 11 = !addressed := by
  refine ⟨(destAddressed_opcodeWord op _ s).trans ?_, (destDirect_opcodeWord op _ s).trans ?_⟩ <;> cases addressed <;> rfl

/-- Bits 8 and 9 of a source that is there: exactly the one of its kind is 1. -/
theorem opcodeWord_srcBits (op : BitVec 8) (d : Option Bool) (addressed : Bool) :
    (opcodeWord op d (some addressed)).getLsbD 8 = addressed ∧ (opcodeWord op d (some addressed)).getLsbD 9 = !addressed := by
  refine ⟨(srcAddressed_opcodeWord op d _).trans ?_, (srcDirect_opcodeWord op d _).trans ?_⟩ <;> cases addressed <;> rfl

/-! ## The mnemonic an opcode number names -/

/-- An injective map gives back `m` for its number and for no other. -/
theorem lookupMnemonic_eq_some_iff {op : BitVec 8} (h : o.Injective) : lookupMnemonic o op = some m ↔ o.of m = op :=
  ⟨of_lookupMnemonic, fun e => e ▸ lookupMnemonic_of h m⟩

/-- A number names nothing exactly when it is the number of no mnemonic (30_encoding.md R78). -/
theorem lookupMnemonic_eq_none_iff {op : BitVec 8} : lookupMnemonic o op = none ↔ ∀ m, o.of m ≠ op := by
  simp [lookupMnemonic, Mnemonic.mem_all]

/-! ## What the decoder accepts -/

theorem decode_unknown (h : lookupMnemonic o (opField w) = none) : decode o (w :: rest) = .error (.unknownOpcode (opField w)) := by
  simp [decode, h]

theorem decode_truncated (h : lookupMnemonic o (opField w) = some m) (hlen : rest.length < m.arity) :
    decode o (w :: rest) = .error (.truncated m) := by
  simp [decode, h, hlen]

theorem decode_known (h : lookupMnemonic o (opField w) = some m) (hlen : m.arity ≤ rest.length) :
    decode o (w :: rest) = .ok (buildInstr m ⟨destAddressed w, rest.getD 0 0⟩ ⟨srcAddressed w, rest.getD 1 0⟩) := by
  simp [decode, h, hlen]

/-- The decoder accepts a word exactly when its `OP` names a mnemonic whose operand words follow. -/
theorem decode_cons_eq_ok_iff : decode o (w :: rest) = .ok i ↔
    ∃ m, lookupMnemonic o (opField w) = some m ∧ m.arity ≤ rest.length ∧
      i = buildInstr m ⟨destAddressed w, rest.getD 0 0⟩ ⟨srcAddressed w, rest.getD 1 0⟩ := by
  constructor
  · intro h
    rcases hm : lookupMnemonic o (opField w) with _ | m
    · cases (decode_unknown hm).symm.trans h
    · by_cases hlen : m.arity ≤ rest.length
      · exact ⟨m, rfl, hlen, Except.ok.inj (h.symm.trans (decode_known hm hlen))⟩
      · cases (decode_truncated hm (not_le.1 hlen)).symm.trans h
  · rintro ⟨m, hm, hlen, rfl⟩
    exact decode_known hm hlen

/-- The decoder reads of an opcode word `OP` and the two addressed bits, nothing else (30_encoding.md R72). -/
theorem decode_congr (hop : opField w = opField w') (hd : destAddressed w = destAddressed w') (hs : srcAddressed w = srcAddressed w')
    (o : OpcMap) (rest : List Word) : decode o (w :: rest) = decode o (w' :: rest) := by
  simp only [decode, hop, hd, hs]

/-- The destination of a decoded instruction: bit 10 and the first word that follows. -/
theorem decode_dest (h : decode o (w :: rest) = .ok i) {dest : Operand} (hd : i.dest? = some dest) :
    dest.addressed = w.getLsbD 10 ∧ some dest.word = rest[0]? := by
  obtain ⟨m, -, hlen, rfl⟩ := decode_cons_eq_ok_iff.1 h
  rw [buildInstr_dest?] at hd
  split at hd
  case isTrue ha =>
    cases hd
    have hpos : 0 < rest.length := by omega
    simp [destAddressed, hpos]
  case isFalse => cases hd

/-- The source of a decoded instruction: bit 8 and the second word that follows. -/
theorem decode_src (h : decode o (w :: rest) = .ok i) {src : Operand} (hs : i.src? = some src) :
    src.addressed = w.getLsbD 8 ∧ some src.word = rest[1]? := by
  obtain ⟨m, -, hlen, rfl⟩ := decode_cons_eq_ok_iff.1 h
  rw [buildInstr_src?] at hs
  split at hs
  case isTrue ha =>
    cases hs
    have hpos : 1 < rest.length := by omega
    simp [srcAddressed, hpos]
  case isFalse => cases hs

/-- No mnemonic takes more than two operands (30_encoding.md R74). -/
theorem Mnemonic.arity_le_two (m : Mnemonic) : m.arity ≤ 2 := by cases m <;> decide

/-- An instruction has a destination exactly when its arity is not 0. -/
theorem Instr.dest?_isSome_iff (i : Instr) : i.dest?.isSome = true ↔ 1 ≤ i.mnemonic.arity := by
  cases i <;> simp [Instr.dest?, Instr.mnemonic, Mnemonic.arity]

/-- An instruction has a source exactly when its arity is 2. -/
theorem Instr.src?_isSome_iff (i : Instr) : i.src?.isSome = true ↔ i.mnemonic.arity = 2 := by
  cases i <;> simp [Instr.src?, Instr.mnemonic, Mnemonic.arity]

/-- A word made of the number and the operand kinds of `m` decodes to an instruction of that mnemonic and those kinds. -/
theorem decode_opcodeWord (ho : o.Injective) (hlen : m.arity ≤ rest.length) {d s : Option Bool}
    (hd : d.isSome = true ↔ 1 ≤ m.arity) (hs : s.isSome = true ↔ m.arity = 2) :
    ∃ i, decode o (opcodeWord (o.of m) d s :: rest) = .ok i ∧ i.mnemonic = m ∧
      i.dest?.map (·.addressed) = d ∧ i.src?.map (·.addressed) = s := by
  have hm : lookupMnemonic o (opField (opcodeWord (o.of m) d s)) = some m := by rw [opField_opcodeWord, lookupMnemonic_of ho]
  refine ⟨_, decode_known hm hlen, buildInstr_mnemonic _ _ _, ?_, ?_⟩
  · simp only [buildInstr_dest?, ← hd, destAddressed_opcodeWord]
    rcases d with _ | _ | _ <;> rfl
  · simp only [buildInstr_src?, ← hs, srcAddressed_opcodeWord]
    rcases s with _ | _ | _ <;> rfl

/-- Settles O5: the mnemonic and the length by `decode_cons_eq_ok_iff`, the operands by `decode_dest` and `decode_src`. -/
theorem opcodeAloneGivesLengthAndOperands : Obligations.OpcodeAloneGivesLengthAndOperands := by
  intro o ws i h
  cases ws with
  | nil => cases h
  | cons w rest =>
    obtain ⟨m, hm, hlen, hi⟩ := decode_cons_eq_ok_iff.1 h
    obtain rfl : i.mnemonic = m := by rw [hi, buildInstr_mnemonic]
    refine ⟨w, rest, rfl, hm, of_lookupMnemonic hm, rfl, ?_, fun _ => decode_dest h, fun _ => decode_src h,
      i.dest?_isSome_iff, i.src?_isSome_iff⟩
    rw [Instr.len, List.length_cons]
    omega

/-- Settles O6: `decode_congr`, `decode_cons_eq_ok_iff`, `decode_dest` and `decode_src`, and the bits of `opcodeWord`. -/
theorem decoderIgnoresTheOtherBits : Obligations.DecoderIgnoresTheOtherBits := by
  refine ⟨fun o w w' rest h => ?_, fun o w rest m ho hm hlen => ?_, fun o w rest i h => ?_, fun o i => ⟨fun k hk => ?_, ?_, ?_⟩⟩
  · refine decode_congr (BitVec.eq_of_getLsbD_eq fun k hk => ?_) (h 10 (.inr (.inr rfl))) (h 8 (.inr (.inl rfl))) o rest
    rw [opField_getLsbD hk, opField_getLsbD hk, h k (.inl hk)]
  · rw [← opField_eq_extractLsb'] at hm
    exact ⟨_, decode_known ((lookupMnemonic_eq_some_iff ho).2 hm) hlen, buildInstr_mnemonic _ _ _⟩
  · exact ⟨fun _ hd => (decode_dest h hd).1, fun _ hs => (decode_src h hs).1⟩
  · rw [← opField_getLsbD hk, Instr.opcode, opField_opcodeWord]
  · intro src hs
    rw [Instr.opcode, hs]
    exact opcodeWord_srcBits _ _ _
  · intro dest hd
    rw [Instr.opcode, hd]
    exact opcodeWord_destBits _ _ _

end Sys2Proof

/-! SUPPORT. The step of a running core inside the program image whose fetch fails (30_encoding.md R88), and the status no instruction
sets (R99). -/
namespace Sys2Proof.Machine

variable {s t : State} {w : Word} {i : Instr} {m : Mnemonic}

/-! ## The fetch -/

/-- Where there is an opcode word at `ip`, `ip` is inside the image. -/
theorem ip_lt_of_image_getElem? (h0 : 0 ≤ s.ip) (hw : s.image[s.ip.toNat]? = some w) : s.ip < s.image.length := by
  have hlt := (List.getElem?_eq_some_iff.1 hw).1
  omega

/-- The fetch decodes the opcode word at `ip` with the words that follow it. -/
theorem fetch_eq (hw : s.image[s.ip.toNat]? = some w) : fetch s = decode s.cfg.opc (w :: s.image.drop (s.ip.toNat + 1)) := by
  obtain ⟨hlt, rfl⟩ := List.getElem?_eq_some_iff.1 hw
  rw [fetch, List.drop_eq_getElem_cons hlt]

/-- A running core whose decoder refuses the words at `ip` takes the fault InvalidProgram (30_encoding.md R88, R90). -/
theorem step_of_fetch_error {e : DecodeError} (hs : s.status = .running) (h0 : 0 ≤ s.ip) (hlt : s.ip < s.image.length)
    (hf : fetch s = .error e) : step s = raise .invalidProgram s := by
  simp [step, hs, cycle, not_le.2 hlt, not_lt.2 h0, hf]

/-- Settles O12: what `OP` names decides the fetch, by `decode_unknown` and `decode_cons_eq_ok_iff`. -/
theorem unknownOpcodeIsInvalidProgram : Obligations.UnknownOpcodeIsInvalidProgram := by
  intro s w hs h0 hw
  rw [← opField_eq_extractLsb']
  refine ⟨fun hnone => ?_, fun m ho hm i hi => ?_⟩
  · have hf := (fetch_eq hw).trans (decode_unknown (lookupMnemonic_eq_none_iff.2 hnone))
    exact step_of_fetch_error hs h0 (ip_lt_of_image_getElem? h0 hw) hf
  · obtain ⟨m', hm', -, rfl⟩ := decode_cons_eq_ok_iff.1 ((fetch_eq hw).symm.trans hi)
    rw [(lookupMnemonic_eq_some_iff ho).2 hm] at hm'
    rw [buildInstr_mnemonic, Option.some.inj hm']

/-! ## Halting -/

/-- No instruction halts a core that is not halted: it keeps the status, takes a fault or is refused. -/
theorem exec_status_ne_halted (hs : s.status ≠ .halted) (h : exec i s = .next t) : t.status ≠ .halted := by
  cases exec_cases h with
  | done => exact hs
  | _ => exact Status.noConfusion

/-- The end of the image decides: past it the step only sets the status Halted, before it the core does not halt. -/
theorem step_halts_or_not (hs : s.status = .running) (h : step s = .next t) :
    ((s.image.length : Int) ≤ s.ip ∧ t = s.setStatus .halted) ∨ (s.ip < s.image.length ∧ t.status ≠ .halted) := by
  rcases step_cases h with ⟨-, hc⟩ | ⟨hh, -⟩
  · cases hc with
    | halt hend => exact .inl ⟨hend, rfl⟩
    | negativeIp hneg => exact .inr ⟨by omega, Status.noConfusion⟩
    | invalid e h0 hlt hf => exact .inr ⟨hlt, Status.noConfusion⟩
    | run i h0 hlt hf he => exact .inr ⟨hlt, exec_status_ne_halted (by simp [hs]) he⟩
  · cases hs.symm.trans hh

/-- Settles O20: the instructions by `exec_status_ne_halted`, the step by `step_halts_or_not`. -/
theorem onlyTheEndOfTheImageHalts : Obligations.OnlyTheEndOfTheImageHalts := by
  refine ⟨fun i s t hs => exec_status_ne_halted (by simp [hs]), fun s t hs h => ?_⟩
  rcases step_halts_or_not hs h with ⟨hend, rfl⟩ | ⟨hlt, hne⟩
  · exact ⟨⟨fun _ => hend, fun _ => rfl⟩, fun _ => rfl⟩
  · exact ⟨⟨fun e => absurd e hne, fun hend => absurd hlt (not_lt.2 hend)⟩, fun e => absurd e hne⟩

end Sys2Proof.Machine

/-! SUPPORT. The linker engine (30_encoding.md R110 to R123): what the first pass does with a node, and the words of the first pass that
no pending use overwrites, the opcode words among them, which the second pass leaves as they are. -/
namespace Sys2Proof.Machine

variable {o : OpcMap} {m : Mnemonic} {n : Node} {nodes pre post : List Node} {st st' : LinkState} {p : Nat} {w : Word} {ws : List Word}

/-! ## One node -/

/-- The name found is the one looked for. -/
theorem mnemonicName_of_mnemonicOfName {name : String} (h : mnemonicOfName name = some m) : mnemonicName m = name := by
  simpa using List.find?_some h

/-- The contract fixes the number of operands (30_encoding.md R116). -/
theorem length_of_contractOk {ops : List NodeOperand} (h : contractOk m ops = true) : ops.length = m.arity := by
  simp only [contractOk, Bool.and_eq_true, beq_iff_eq] at h
  exact h.1.1

/-- Every operand emits one word. -/
theorem length_of_operandWords {ops : List NodeOperand} (h : operandWords ops = some ws) : ws.length = ops.length := by
  induction ops generalizing ws with
  | nil => cases h; rfl
  | cons op ops ih =>
    obtain ⟨w, -, h⟩ := Option.bind_eq_some_iff.1 h
    obtain ⟨rest, hrest, rfl⟩ := Option.map_eq_some_iff.1 h
    rw [List.length_cons, List.length_cons, ih hrest]

/-- The first pass accepts a node that spells a mnemonic, keeps its contract and whose values fit a word, and emits its words. -/
theorem linkNode_eq_ok_iff : linkNode o st n = .ok st' ↔
    ∃ m ws, mnemonicOfName n.mnemonic = some m ∧ contractOk m n.operands = true ∧ operandWords n.operands = some ws ∧
      st' = (st.define n.label).emit o m n.operands ws := by
  rw [linkNode]
  rcases mnemonicOfName n.mnemonic with _ | m
  · simp
  by_cases hc : contractOk m n.operands = true
  · rcases operandWords n.operands with _ | ws
    · simp [hc]
    · simp [hc, eq_comm (a := st')]
  · simp [hc]

@[simp] theorem LinkState.define_out (st : LinkState) (l : Option String) : (st.define l).out = st.out := by cases l <;> rfl

@[simp] theorem LinkState.define_pending (st : LinkState) (l : Option String) : (st.define l).pending = st.pending := by
  cases l <;> rfl

/-- The opcode word of a node that spells `m`. -/
def nodeOpcode (o : OpcMap) (m : Mnemonic) (n : Node) : Word :=
  opcodeWord (o.of m) (n.operands[0]?.map (·.isAddressed)) (n.operands[1]?.map (·.isAddressed))

/-- An accepted node emits the opcode word of its mnemonic and a word for each operand. -/
theorem linkNode_out (h : linkNode o st n = .ok st') : ∃ m ws, mnemonicOfName n.mnemonic = some m ∧ n.operands.length = m.arity ∧
    ws.length = n.operands.length ∧ st'.out = st.out ++ nodeOpcode o m n :: ws := by
  obtain ⟨m, ws, hm, hc, hws, rfl⟩ := linkNode_eq_ok_iff.1 h
  exact ⟨m, ws, hm, length_of_contractOk hc, length_of_operandWords hws, by rw [LinkState.emit, LinkState.define_out]; rfl⟩

theorem linkNode_out_length (h : linkNode o st n = .ok st') : st'.out.length = st.out.length + (1 + n.operands.length) := by
  obtain ⟨m, ws, -, -, hws, hout⟩ := linkNode_out h
  simp only [hout, List.length_append, List.length_cons, hws]
  omega

/-- A recorded use is that of a label at the given place. -/
theorem mem_pendingUse {op : Option NodeOperand} {use : String × Nat} (h : use ∈ pendingUse p op) :
    op = some (.labelRef use.1) ∧ use.2 = p := by
  rcases op with _ | _ | _ | _ | l
  case some.labelRef =>
    obtain rfl := List.mem_singleton.1 h
    exact ⟨rfl, rfl⟩
  all_goals cases h

/-- The uses a node adds are its label operands, each at the place of its word (30_encoding.md R113). -/
theorem linkNode_pending (h : linkNode o st n = .ok st') {use : String × Nat} (hu : use ∈ st'.pending) :
    use ∈ st.pending ∨ ∃ k, n.operands[k]? = some (.labelRef use.1) ∧ use.2 = st.out.length + 1 + k := by
  obtain ⟨m, ws, -, -, -, rfl⟩ := linkNode_eq_ok_iff.1 h
  rw [← LinkState.define_pending st n.label]
  simp only [LinkState.pending, LinkState.emit, List.mem_append, LinkState.define_out] at hu ⊢
  rcases hu with (hu | hu) | (hu | hu)
  · exact .inl (.inl hu)
  · exact .inr ⟨0, mem_pendingUse hu⟩
  · exact .inl (.inr hu)
  · exact .inr ⟨1, mem_pendingUse hu⟩

/-! ## The first pass -/

theorem firstPass_cons_eq_ok_iff : firstPass o st (n :: nodes) = .ok st' ↔
    ∃ st₁, linkNode o st n = .ok st₁ ∧ firstPass o st₁ nodes = .ok st' := by
  rw [firstPass]
  rcases linkNode o st n with e | st₁ <;> simp

/-- The first pass over two lists is one after the other. -/
theorem firstPass_append_eq_ok_iff : firstPass o st (pre ++ post) = .ok st' ↔
    ∃ st₁, firstPass o st pre = .ok st₁ ∧ firstPass o st₁ post = .ok st' := by
  induction pre generalizing st with
  | nil => simp [firstPass]
  | cons n pre ih =>
    simp only [List.cons_append, firstPass_cons_eq_ok_iff, ih]
    exact ⟨fun ⟨u, hu, v, hv, h⟩ => ⟨v, ⟨u, hu, hv⟩, h⟩, fun ⟨v, ⟨u, hu, hv⟩, h⟩ => ⟨u, hu, v, hv, h⟩⟩

/-- What every accepted node keeps, the first pass keeps. -/
theorem firstPass_keeps {P : LinkState → Prop} (hP : ∀ {n st st'}, linkNode o st n = .ok st' → P st → P st')
    (h : firstPass o st nodes = .ok st') (h0 : P st) : P st' := by
  induction nodes generalizing st with
  | nil => cases h; exact h0
  | cons n nodes ih =>
    obtain ⟨st₁, hn, hrest⟩ := firstPass_cons_eq_ok_iff.1 h
    exact ih hrest (hP hn h0)

@[simp] theorem wordCount_nil : wordCount [] = 0 := rfl

@[simp] theorem wordCount_cons (n : Node) (nodes : List Node) :
    wordCount (n :: nodes) = 1 + n.operands.length + wordCount nodes := by
  simp [wordCount]

@[simp] theorem wordCount_append (pre post : List Node) : wordCount (pre ++ post) = wordCount pre + wordCount post := by
  simp [wordCount]

/-- The first pass emits the words it counts (30_encoding.md R111). -/
theorem firstPass_out_length (h : firstPass o st nodes = .ok st') : st'.out.length = st.out.length + wordCount nodes := by
  induction nodes generalizing st with
  | nil => cases h; rfl
  | cons n nodes ih =>
    obtain ⟨st₁, hn, hrest⟩ := firstPass_cons_eq_ok_iff.1 h
    rw [ih hrest, linkNode_out_length hn, wordCount_cons, Nat.add_assoc]

/-! ## The words no use overwrites -/

/-- Every pending use is at a word emitted so far. -/
def LinkState.UsesInside (st : LinkState) : Prop := ∀ use ∈ st.pending, use.2 < st.out.length

/-- The word at `p` is `w`, and no pending use overwrites it. -/
def LinkState.Fixed (st : LinkState) (p : Nat) (w : Word) : Prop := st.out[p]? = some w ∧ ∀ use ∈ st.pending, use.2 ≠ p

theorem linkNode_usesInside (h : linkNode o st n = .ok st') (hst : st.UsesInside) : st'.UsesInside := by
  intro use hu
  rw [linkNode_out_length h]
  rcases linkNode_pending h hu with hu | ⟨k, hk, hp⟩
  · have := hst use hu
    omega
  · have := (List.getElem?_eq_some_iff.1 hk).1
    omega

/-- A node adds uses behind the words emitted before it, so a fixed word stays fixed. -/
theorem linkNode_fixed (h : linkNode o st n = .ok st') (hst : st.Fixed p w) : st'.Fixed p w := by
  obtain ⟨hw, huses⟩ := hst
  have hp : p < st.out.length := (List.getElem?_eq_some_iff.1 hw).1
  refine ⟨?_, fun use hu => ?_⟩
  · obtain ⟨m, ws, -, -, -, hout⟩ := linkNode_out h
    rw [hout, List.getElem?_append_left hp, hw]
  · rcases linkNode_pending h hu with hu | ⟨k, -, hk⟩
    · exact huses use hu
    · omega

/-- The opcode word of an accepted node is fixed: the uses before it are before it, its own are behind it. -/
theorem linkNode_opcode_fixed (h : linkNode o st n = .ok st') (hst : st.UsesInside) :
    ∃ m, mnemonicOfName n.mnemonic = some m ∧ n.operands.length = m.arity ∧ st'.Fixed st.out.length (nodeOpcode o m n) := by
  obtain ⟨m, ws, hm, hlen, -, hout⟩ := linkNode_out h
  refine ⟨m, hm, hlen, by simp [hout], fun use hu => ?_⟩
  rcases linkNode_pending h hu with hu | ⟨k, -, hk⟩
  · exact (hst use hu).ne
  · omega

/-- After the first pass the opcode word of every node is fixed, at the node's word offset. -/
theorem firstPass_opcode_fixed (h : firstPass o LinkState.empty (pre ++ n :: post) = .ok st) :
    ∃ m, mnemonicOfName n.mnemonic = some m ∧ n.operands.length = m.arity ∧ st.Fixed (wordCount pre) (nodeOpcode o m n) := by
  obtain ⟨st₁, hpre, h⟩ := firstPass_append_eq_ok_iff.1 h
  obtain ⟨st₂, hn, hpost⟩ := firstPass_cons_eq_ok_iff.1 h
  have hinside : st₁.UsesInside := firstPass_keeps linkNode_usesInside hpre (fun _ hu => absurd hu List.not_mem_nil)
  have hoffset : st₁.out.length = wordCount pre := by simpa [LinkState.empty] using firstPass_out_length hpre
  obtain ⟨m, hm, hlen, hfixed⟩ := linkNode_opcode_fixed hn hinside
  exact ⟨m, hm, hlen, firstPass_keeps linkNode_fixed hpost (hoffset ▸ hfixed)⟩

/-! ## The second pass -/

/-- A successful second pass patches the pending uses into the words of the first. -/
theorem secondPass_eq (h : secondPass st = .ok ws) : ws = st.pending.foldl (patch st) st.out := by
  rw [secondPass] at h
  split at h
  case h_1 => cases h
  case h_2 =>
    split at h
    case isTrue => exact (Except.ok.inj h).symm
    case isFalse => cases h

@[simp] theorem patch_length (st : LinkState) (out : List Word) (use : String × Nat) : (patch st out use).length = out.length := by
  rw [patch]
  split <;> simp

theorem patch_getElem?_ne {out : List Word} {use : String × Nat} (h : use.2 ≠ p) : (patch st out use)[p]? = out[p]? := by
  rw [patch]
  split
  · rfl
  · exact List.getElem?_set_ne h

theorem foldl_patch_length (uses : List (String × Nat)) (out : List Word) :
    (uses.foldl (patch st) out).length = out.length := by
  induction uses generalizing out with
  | nil => rfl
  | cons use uses ih => rw [List.foldl_cons, ih, patch_length]

theorem foldl_patch_getElem?_ne {uses : List (String × Nat)} (out : List Word) (h : ∀ use ∈ uses, use.2 ≠ p) :
    (uses.foldl (patch st) out)[p]? = out[p]? := by
  induction uses generalizing out with
  | nil => rfl
  | cons use uses ih =>
    obtain ⟨hne, hrest⟩ := List.forall_mem_cons.1 h
    rw [List.foldl_cons, ih _ hrest, patch_getElem?_ne hne]

/-- The second pass leaves the number of words as it is. -/
theorem secondPass_length (h : secondPass st = .ok ws) : ws.length = st.out.length := by
  rw [secondPass_eq h, foldl_patch_length]

/-- The second pass leaves a fixed word as it is. -/
theorem secondPass_fixed (h : secondPass st = .ok ws) (hst : st.Fixed p w) : ws[p]? = some w := by
  rw [secondPass_eq h, foldl_patch_getElem?_ne _ hst.2, hst.1]

/-! ## The whole engine -/

/-- A link succeeds when both passes do. -/
theorem linkWords_eq_ok_iff : linkWords o nodes = .ok ws ↔
    ∃ st, firstPass o LinkState.empty (withStart nodes) = .ok st ∧ secondPass st = .ok ws := by
  rw [linkWords]
  rcases firstPass o LinkState.empty (withStart nodes) with e | st <;> simp

/-- The image has the words of the nodes and no others. -/
theorem linkWords_length (h : linkWords o nodes = .ok ws) : ws.length = wordCount (withStart nodes) := by
  obtain ⟨st, hfirst, hsecond⟩ := linkWords_eq_ok_iff.1 h
  simpa [secondPass_length hsecond, LinkState.empty] using firstPass_out_length hfirst

/-- The opcode word of every node stands in the image at the node's word offset. -/
theorem linkWords_opcode (h : linkWords o nodes = .ok ws) (hnodes : withStart nodes = pre ++ n :: post) :
    ∃ m, mnemonicOfName n.mnemonic = some m ∧ n.operands.length = m.arity ∧ ws[wordCount pre]? = some (nodeOpcode o m n) := by
  obtain ⟨st, hfirst, hsecond⟩ := linkWords_eq_ok_iff.1 h
  obtain ⟨m, hm, hlen, hfixed⟩ := firstPass_opcode_fixed (hnodes ▸ hfirst)
  exact ⟨m, hm, hlen, secondPass_fixed hsecond hfixed⟩

/-- The opcode word of a node, followed by enough words, decodes to the node's mnemonic and operand kinds. -/
theorem decode_nodeOpcode (ho : o.Injective) (hlen : n.operands.length = m.arity) {rest : List Word} (hrest : m.arity ≤ rest.length) :
    ∃ i, decode o (nodeOpcode o m n :: rest) = .ok i ∧ i.mnemonic = m ∧
      i.dest?.map (·.addressed) = n.operands[0]?.map (·.isAddressed) ∧
      i.src?.map (·.addressed) = n.operands[1]?.map (·.isAddressed) := by
  have htwo := m.arity_le_two
  refine decode_opcodeWord ho hrest ?_ ?_
  · simp only [Option.isSome_map, isSome_getElem?, hlen]
    omega
  · simp only [Option.isSome_map, isSome_getElem?, hlen]
    omega

/-- Settles O51: the node's opcode word by `linkWords_opcode`, with enough words behind it by `linkWords_length`; that it decodes back by
`decode_nodeOpcode`; its bits by those of `opcodeWord`. -/
theorem linkedNodesDecodeBack : Obligations.LinkedNodesDecodeBack := by
  intro o nodes ws ho h
  refine ⟨linkWords_length h, fun pre n post hnodes => ?_⟩
  obtain ⟨m, hm, hlen, hw⟩ := linkWords_opcode h hnodes
  obtain ⟨hlt, hat⟩ := List.getElem?_eq_some_iff.1 hw
  have hrest : m.arity ≤ (ws.drop (wordCount pre + 1)).length := by
    rw [List.length_drop, linkWords_length h, hnodes, wordCount_append, wordCount_cons]
    omega
  obtain ⟨i, hi, rfl, hdest, hsrc⟩ := decode_nodeOpcode ho hlen hrest
  refine ⟨i, by rw [List.drop_eq_getElem_cons hlt, hat, hi], mnemonicName_of_mnemonicOfName hm, by rw [hlen, Instr.len], hdest, hsrc,
    _, hw, fun op hop => ?_, fun op hop => ?_⟩
  · rw [nodeOpcode, hop]
    exact opcodeWord_destBits _ _ _
  · rw [nodeOpcode, hop]
    exact opcodeWord_srcBits _ _ _

end Sys2Proof.Machine

/-! SUPPORT. The instruction `mod` (43_modulo.md R180, R181): the sign and the size of the truncating remainder, and the whole next state
of an instruction that writes one named cell and advances. -/
namespace Sys2Proof.Machine

variable {s t : State} {i : Instr} {dest src : Operand} {n len : Nat} {d v : Int} {w : List Int}

/-! ## The truncating remainder -/

/-- A remainder that is not zero has the sign of the dividend. -/
theorem tmod_eq_zero_or_pos_iff (d v : Int) : tmod d v = 0 ∨ (0 < tmod d v ↔ 0 < d) := by
  rw [tmod_eq]
  by_cases hdvd : v ∣ d
  · exact .inl (Int.tmod_eq_zero_of_dvd hdvd)
  · have hsign : (Int.tmod d v).sign = d.sign := by rw [Int.sign_tmod, if_neg hdvd]
    exact .inr (by rw [← Int.sign_eq_one_iff_pos, hsign, Int.sign_eq_one_iff_pos])

/-- The remainder is smaller than the divisor, in absolute value. -/
theorem abs_tmod_lt (d : Int) (hv : v ≠ 0) : |tmod d v| < |v| := by
  rw [tmod_eq, Int.abs_eq_natAbs, Int.abs_eq_natAbs, Int.natAbs_tmod]
  exact Int.ofNat_lt.2 (Nat.mod_lt _ (Int.natAbs_pos.2 hv))

/-! ## Completing with an advance -/

theorem completeAdvance_eq (hip : fits s.cfg (t.ip + len) = true) (hw : ∀ x ∈ w, fits s.cfg x = true) :
    completeAdvance s t len w = .next (t.advance len).countOp :=
  complete_eq (by rwa [State.advance_ip]) hw

/-- An instruction that writes `v` to cell `n`, which is not `ip`, and advances changes nothing else. -/
theorem retires_of_completeAdvance_setCell (hn : n ≠ 6) (he : exec i s = completeAdvance s (s.setCell n v) len [v])
    (hv : fits s.cfg v = true) (hip : fits s.cfg (s.ip + len) = true) :
    Retires i s (s.ip + len) (cellsWith s n v) s.esp s.output := by
  have hip' : (s.setCell n v).ip = s.ip := by rw [State.setCell_ip, if_neg hn]
  refine ⟨((s.setCell n v).advance len).countOp, ?_, ?_, fun a ha => ?_, rfl, rfl, rfl, rfl, rfl, rfl⟩
  · rw [he]
    exact completeAdvance_eq (by rwa [hip']) (by simpa using hv)
  · rw [← hip']
    exact State.advance_ip _ len
  · calc ((s.setCell n v).advance len).cell a = (s.setCell n v).cell a := by rw [State.advance_cell, if_neg ha]
      _ = cellsWith s n v a := State.setCell_cell s n a v

/-! ## The instruction -/

/-- A `mod` with a divisor that is not 0 writes the remainder to cell 7 and advances. -/
theorem exec_mod (hd : resolve s dest = some d) (hv : resolve s src = some v) (h0 : v ≠ 0) :
    exec (.mod dest src) s = completeAdvance s (s.setCell 7 (tmod d v)) 3 [tmod d v] :=
  (withOperands_eq _ hd hv).trans (if_neg h0)

/-- Settles O36: the next state by `exec_mod`, the sign and the size of the remainder by the laws of `tmod`. -/
theorem modRemainderHasSignOfDividend : Obligations.ModRemainderHasSignOfDividend := by
  intro s dest src d v hd hv h0 hr hip
  exact ⟨tmod d v, retires_of_completeAdvance_setCell (by decide) (exec_mod hd hv h0) hr hip,
    (add_sub_cancel _ d).symm, abs_tmod_lt d h0, tmod_eq_zero_or_pos_iff d v⟩

end Sys2Proof.Machine

/-! SUPPORT. The jumps (45_jumps.md R200 to R208): a conditional jump goes on at its target or past its two words, and changes nothing
else; its condition by the bits of FLAGS, and those bits after a `cmp` (44_compare.md R190). -/
namespace Sys2Proof.Machine

variable {s t : State} {i : Instr} {c : State → Bool} {dest src : Operand} {d v f : Int}

/-! ## Where a jump goes on -/

/-- An instruction that jumps to `d` changes nothing but `ip` and the operation counter. -/
theorem retires_of_exec_eq_jumpTo (he : exec i s = jumpTo s d) (hd : fits s.cfg d = true) :
    Retires i s d s.cell s.esp s.output := by
  refine ⟨(s.setIp d).countOp, ?_, State.setIp_ip s d, fun a ha => ?_, rfl, rfl, rfl, rfl, rfl, rfl⟩
  · rw [he]
    exact complete_eq (by rwa [State.setIp_ip]) (by simp)
  · rw [State.countOp_cell, State.setIp_cell, if_neg ha]

/-- An untaken jump is a jump past its own two words. -/
theorem jumpIf_eq (h : resolve s dest = some d) : jumpIf c dest s = jumpTo s (if c s then d else s.ip + 2) := by
  rw [jumpIf, withDest_eq _ h]
  cases c s <;> rfl

/-- An instruction that is the conditional jump on `c` goes on at its target when `c` holds, else past its two words. -/
theorem retires_of_exec_eq_jumpIf (he : exec i s = jumpIf c dest s) (h : resolve s dest = some d)
    (hip : fits s.cfg (if c s then d else s.ip + 2) = true) :
    Retires i s (if c s then d else s.ip + 2) s.cell s.esp s.output :=
  retires_of_exec_eq_jumpTo (he.trans (jumpIf_eq h)) hip

/-- A conditional jump whose condition holds goes on at its target. -/
theorem retires_of_exec_eq_jumpIf_taken (he : exec i s = jumpIf c dest s) (h : resolve s dest = some d)
    (hd : fits s.cfg d = true) (hc : c s = true) : Retires i s d s.cell s.esp s.output :=
  retires_of_exec_eq_jumpTo ((he.trans (jumpIf_eq h)).trans (by rw [if_pos hc])) hd

/-- Settles O40: each condition of R201 makes the model's condition true, and then the jump is taken. -/
theorem jumpTargetIsTheNewIp : Obligations.JumpTargetIsTheNewIp := by
  intro s dest d h hd
  refine ⟨retires_of_exec_eq_jumpTo (withDest_eq _ h) hd, fun hc => ?je, fun hc => ?jne, fun hc => ?jl, fun hc => ?jle,
    fun hc => ?jg, fun hc => ?jge⟩
  case je => exact retires_of_exec_eq_jumpIf_taken (c := condE) rfl h hd hc
  case jne => exact retires_of_exec_eq_jumpIf_taken (c := condNe) rfl h hd (by simp [condNe, hc])
  case jl => exact retires_of_exec_eq_jumpIf_taken (c := condL) rfl h hd (bne_iff_ne.2 hc)
  case jle => exact retires_of_exec_eq_jumpIf_taken (c := condLe) rfl h hd (by simpa [condLe] using hc)
  case jg => exact retires_of_exec_eq_jumpIf_taken (c := condG) rfl h hd (by simpa [condG] using hc)
  case jge => exact retires_of_exec_eq_jumpIf_taken (c := condGe) rfl h hd (beq_iff_eq.2 hc)

/-! ## The conditions -/

/-- The six conditions by the bits of the value `f` of FLAGS. -/
theorem conditions_of_flags (hf : s.flags = f) :
    condE s = bit f 0 ∧ condNe s = !bit f 0 ∧ condL s = (bit f 1 ^^ bit f 2) ∧ condLe s = (bit f 0 || (bit f 1 ^^ bit f 2)) ∧
    condG s = (!bit f 0 && !(bit f 1 ^^ bit f 2)) ∧ condGe s = !(bit f 1 ^^ bit f 2) := by
  subst hf
  have hsame (a b : Bool) : (a == b) = !(a ^^ b) := by cases a <;> cases b <;> rfl
  exact ⟨rfl, rfl, rfl, rfl, congrArg (!bit s.flags 0 && ·) (hsame _ _), hsame _ _⟩

/-- A `cmp` that completed left what it computes in FLAGS. -/
theorem cmp_flags (hd : resolve s dest = some d) (hv : resolve s src = some v) (h : exec (.cmp dest src) s = .next t)
    (hops : t.ops = s.ops + 1) : t.flags = cmpFlags d v := by
  have hc : completeAdvance s (s.setCell 8 (cmpFlags d v)) 3 [cmpFlags d v] = .next t := (withOperands_eq _ hd hv).symm.trans h
  rw [complete_completed hc hops]
  simp [State.flags, State.advance_cell, State.setCell_cell]

/-- What `cmp` computes: ZF is equality, SF is less, OF is 0. -/
theorem bits_cmpFlags (d v : Int) :
    bit (cmpFlags d v) 0 = decide (d = v) ∧ bit (cmpFlags d v) 1 = decide (d < v) ∧ bit (cmpFlags d v) 2 = false := by
  rcases lt_trichotomy d v with h | rfl | h
  · have hf : cmpFlags d v = 2 := by simp [cmpFlags, sub_eq_zero, h, h.ne]
    simp only [hf, h, h.ne]
    decide
  · have hf : cmpFlags d d = 1 := by simp [cmpFlags]
    simp only [hf, lt_irrefl]
    decide
  · have hf : cmpFlags d v = 0 := by simp [cmpFlags, sub_eq_zero, h.ne', h.le]
    simp only [hf, h.not_gt, h.ne']
    decide

/-- After a `cmp` of `d` and `v` the conditions are the comparisons of the integers. -/
theorem conditions_of_cmpFlags (hf : s.flags = cmpFlags d v) :
    condE s = decide (d = v) ∧ condNe s = decide (d ≠ v) ∧ condL s = decide (d < v) ∧ condLe s = decide (d ≤ v) ∧
    condG s = decide (v < d) ∧ condGe s = decide (v ≤ d) := by
  obtain ⟨hz, hs, ho⟩ := bits_cmpFlags d v
  have h := conditions_of_flags hf
  rw [hz, hs, ho, Bool.xor_false] at h
  obtain ⟨hE, hNe, hL, hLe, hG, hGe⟩ := h
  refine ⟨hE, by simp [hNe], hL, ?_, ?_, ?_⟩
  · simp only [hLe, le_iff_eq_or_lt, Bool.decide_or]
  · have hlt : v < d ↔ ¬ d = v ∧ ¬ d < v := by omega
    simp only [hG, hlt, Bool.decide_and, decide_not]
  · simp only [hGe, ← not_lt, decide_not]

/-- Settles O42: the bits by `conditions_of_flags`, which is also the table of the values 0, 1, 2 and 4 of FLAGS; the jumps by
`retires_of_exec_eq_jumpIf`; the comparisons by the bits `cmp` computes. -/
theorem conditionsOfTheJumps : Obligations.ConditionsOfTheJumps := by
  refine ⟨fun s => conditions_of_flags rfl, fun s dest d h hd h2 => ?jumps, fun s t dest src d v hd hv h hops => ?cmp,
    fun s => ⟨conditions_of_flags, conditions_of_flags, conditions_of_flags, fun hf => ?four⟩⟩
  case jumps =>
    have hip (c : State → Bool) : fits s.cfg (if c s then d else s.ip + 2) = true := by
      cases c s
      · exact h2
      · exact hd
    exact ⟨retires_of_exec_eq_jumpIf rfl h (hip condE), retires_of_exec_eq_jumpIf rfl h (hip condNe),
      retires_of_exec_eq_jumpIf rfl h (hip condL), retires_of_exec_eq_jumpIf rfl h (hip condLe),
      retires_of_exec_eq_jumpIf rfl h (hip condG), retires_of_exec_eq_jumpIf rfl h (hip condGe)⟩
  case cmp => exact conditions_of_cmpFlags (cmp_flags hd hv h hops)
  case four =>
    obtain ⟨-, -, hL, -, -, hGe⟩ := conditions_of_flags hf
    exact ⟨hL, hGe⟩

end Sys2Proof.Machine

/-! SUPPORT. `call` and `ret` (47_call_ret.md R230 to R232): a legal stack lies inside the machine image, and an instruction that ends by
setting `ip` leaves all else as its own writes left it. -/
namespace Sys2Proof.Machine

variable {s u : State} {i : Instr} {dest : Operand} {d : Int} {w : List Int}

/-- Every cell of the stack of a legal configuration is a cell of the machine image. -/
theorem esp_inRange (hlegal : s.cfg.Legal) (hf : stackFloor s.cfg ≤ s.esp) (hl : s.esp ≤ lastCell s.cfg) :
    inRange s.cfg s.esp = true := by
  obtain ⟨hsizes, -⟩ := hlegal
  refine inRange_iff.2 ⟨?_, hl⟩
  simp only [stackFloor, lastCell] at hf
  omega

/-- `setCell` is `cellsWith` on the cells. -/
theorem State.setCell_cell_eq_cellsWith (s : State) (n : Nat) (v : Int) : (s.setCell n v).cell = cellsWith s n v :=
  funext (fun a => s.setCell_cell n a v)

/-- An instruction that completes by setting `ip` to `d` in a state `u`, made from `s` by writes to cells, `esp` and the output,
changes nothing else. -/
theorem retires_of_complete_setIp (he : exec i s = complete s (u.setIp d) w) (hd : fits s.cfg d = true)
    (hw : ∀ v ∈ w, fits s.cfg v = true) (hops : u.ops = s.ops) (hstatus : u.status = s.status) (hcfg : u.cfg = s.cfg)
    (himage : u.image = s.image) : Retires i s d u.cell u.esp u.output := by
  refine ⟨(u.setIp d).countOp, ?_, u.setIp_ip d, fun a ha => ?_, rfl, rfl, congrArg (· + 1) hops, hstatus, hcfg, himage⟩
  · rw [he]
    exact complete_eq (by rwa [State.setIp_ip]) hw
  · rw [State.countOp_cell, State.setIp_cell, if_neg ha]

/-! ## call -/

/-- A `call` below the floor. -/
theorem exec_call_overflow (h : resolve s dest = some d) (hf : s.esp < stackFloor s.cfg) :
    exec (.call dest) s = raise .stackOverflow s :=
  (withDest_eq _ h).trans (pushThen_overflow _ hf)

/-- A `call` that pushes goes on at the value its target had before the push. -/
theorem exec_call_push (h : resolve s dest = some d) (hf : stackFloor s.cfg ≤ s.esp) (hr : inRange s.cfg s.esp = true) :
    exec (.call dest) s =
      complete s (((s.setCell s.esp.toNat (s.ip + 2)).setEsp (s.esp - 1)).setIp d) [s.ip + 2, s.esp - 1] :=
  (withDest_eq _ h).trans (pushThen_eq _ hf hr)

/-- Settles O45: the fault by `exec_call_overflow`; else the stack lies inside the machine image, and the next state is that of
`exec_call_push`. -/
theorem callPushesReturnAddress : Obligations.CallPushesReturnAddress := by
  intro s dest d hlegal h
  refine ⟨exec_call_overflow h, fun hf hl hd hesp hip => ?_⟩
  rw [← State.setCell_cell_eq_cellsWith]
  exact retires_of_complete_setIp (exec_call_push h hf (esp_inRange hlegal hf hl)) hd (by simp [hip, hesp]) rfl rfl rfl rfl

/-! ## ret -/

/-- A `ret` of an empty stack. -/
theorem exec_ret_empty (h : lastCell s.cfg < s.esp + 1) : exec .ret s = raise .invalidStack (s.setEsp (s.esp + 1)) :=
  (exec_ret s).trans (popThen_empty _ h)

/-- A `ret` that pops goes on at the value it popped. -/
theorem exec_ret_pop (h0 : 0 ≤ s.esp + 1) (hl : s.esp + 1 ≤ lastCell s.cfg) :
    exec .ret s = complete s ((s.setEsp (s.esp + 1)).setIp (s.cell (s.esp + 1).toNat)) [s.esp + 1] :=
  (exec_ret s).trans (popThen_eq _ h0 hl)

/-- Settles O46: the fault is that of `exec_ret_empty`, the next state that of `exec_ret_pop`. -/
theorem retPopsIntoIp : Obligations.RetPopsIntoIp := by
  refine fun s => ⟨exec_ret_empty, fun h0 hl hesp htop => ?_⟩
  exact retires_of_complete_setIp (exec_ret_pop h0 hl) htop (by simp [hesp]) rfl rfl rfl rfl

end Sys2Proof.Machine

/-! SUPPORT. `nop` (48_nop_prn.md R240). -/
namespace Sys2Proof.Machine

/-- `nop` writes no cell: it only sets `ip` to the word after its own. -/
theorem exec_nop (s : State) : exec .nop s = complete s (s.setIp (s.ip + 1)) [] := rfl

/-- Settles O47: `nop` ends by setting `ip` and writes nothing before that. -/
theorem nopOnlyAdvances : Obligations.NopOnlyAdvances :=
  fun s hip => retires_of_complete_setIp (exec_nop s) hip (by simp) rfl rfl rfl rfl

end Sys2Proof.Machine

/-! SUPPORT. Encoding (30_encoding.md R70, R71, R74): an instruction is built again from its mnemonic and its operands, and the opcode
word it is written with has nothing but its number and the bits of its operands. -/
namespace Sys2Proof

variable {i : Instr} {m : Mnemonic}

/-- An instruction with the mnemonic `m` is one built from `m`. -/
theorem Instr.eq_buildInstr_of_mnemonic (h : i.mnemonic = m) : ∃ dest src, i = buildInstr m dest src :=
  ⟨i.dest?.getD ⟨false, 0⟩, i.src?.getD ⟨false, 0⟩, by rw [← h, buildInstr_self]⟩

/-- Only an instruction with a destination has a source (30_encoding.md R74). -/
theorem Instr.exists_dest?_of_src? {src : Operand} (h : i.src? = some src) : ∃ dest, i.dest? = some dest := by
  have harity := i.src?_isSome_iff.1 (by simp [h])
  exact Option.isSome_iff_exists.1 (i.dest?_isSome_iff.2 (by omega))

/-- The operand words of an instruction are as many as its arity. -/
theorem Instr.arity_eq_operandCount (i : Instr) : i.mnemonic.arity = (i.dest?.toList ++ i.src?.toList).length := by cases i <;> rfl

/-- Settles O4: the opcode field gives the mnemonic back, and the addressed bits with the words that follow give back each operand that
is there, so the instruction is built again as `buildInstr_self` says. -/
theorem decodeInvertsEncode : Obligations.DecodeInvertsEncode := by
  intro o i rest ho
  have hm : lookupMnemonic o (opField (i.opcode o)) = some i.mnemonic := by
    rw [Instr.opcode, opField_opcodeWord, lookupMnemonic_of ho]
  rw [encode, List.cons_append, decode_known hm (by simp [i.arity_eq_operandCount])]
  have hself := buildInstr_self i
  rcases hs : i.src? with _ | src
  · rcases hd : i.dest? with _ | dest
    · simpa [hd, hs] using hself _ _
    · simpa [hd, hs, Instr.opcode, destAddressed_opcodeWord] using hself dest _
  · obtain ⟨dest, hd⟩ := Instr.exists_dest?_of_src? hs
    simpa [hd, hs, Instr.opcode, destAddressed_opcodeWord, srcAddressed_opcodeWord] using hself dest src

end Sys2Proof

/-! SUPPORT. The invariants of the machine (10_state.md R20 to R22, R33): what `exec_cases` says an instruction can write stays inside
0..LAST and inside `CELL_BOUND`, and what it can leave in `esp` stays in its range. -/
namespace Sys2Proof.Machine

variable {i : Instr} {s t : State}

/-- The cells an instruction writes are cells of the machine image. -/
theorem WritesCell.le_lastCell {a : Nat} (hlegal : s.cfg.Legal) (h : WritesCell i s a) : (a : Int) ≤ lastCell s.cfg := by
  obtain ⟨hsizes, -⟩ := hlegal
  rcases h with ⟨-, dest, -, rfl, hr⟩ | ⟨-, rfl⟩ | ⟨-, rfl⟩ | ⟨-, ha, -, hl⟩
  · exact (inRange_iff.1 hr).2
  · simp only [lastCell]; omega
  · simp only [lastCell]; omega
  · omega

/-- The entries after an instruction completed are old ones, the one it wrote, and `ip`. -/
theorem mem_completed {w : Option (Nat × Int)} {ip esp : Int} {out : List Int} {p : Nat × Int}
    (h : p ∈ (completed s w ip esp out).mem) : p ∈ s.mem ∨ w = some p ∨ p = (6, ip) := by
  rcases Memory.mem_write h with rfl | h
  · exact .inr (.inr rfl)
  · rcases w with _ | ⟨a, v⟩
    · exact .inl h
    · rcases Memory.mem_write h with rfl | h
      · exact .inr (.inl rfl)
      · exact .inl h

/-- The machine image stays in canonical form. -/
theorem wf_completed (h : s.mem.wf) (w : Option (Nat × Int)) (ip esp : Int) (out : List Int) :
    (completed s w ip esp out).mem.wf := by
  rcases w with _ | ⟨a, v⟩
  · exact Memory.wf_write h 6 ip
  · exact Memory.wf_write (Memory.wf_write h a v) 6 ip

/-- An instruction that moves the stack pointer keeps it in its range (10_state.md R33). -/
theorem MovesEsp.inRange {e : Int} (h : MovesEsp i s e) (hlow : stackFloor s.cfg - 1 ≤ s.esp) :
    stackFloor s.cfg - 1 ≤ e ∧ e ≤ lastCell s.cfg := by
  rcases h with ⟨-, hf, hl, rfl⟩ | ⟨-, hl, rfl⟩ <;> omega

/-- The invariant of a running core, with the range of `esp` as it is then. -/
theorem State.Inv.esp_of_running (h : s.Inv) (hs : s.status = .running) :
    stackFloor s.cfg - 1 ≤ s.esp ∧ s.esp ≤ lastCell s.cfg := by
  obtain ⟨-, -, -, -, hesp⟩ := h
  exact hesp (by simp [hs])

/-- The cell above the top of the stack of a running core has an address that is not negative. -/
theorem State.Inv.esp_succ_nonneg (h : s.Inv) (hs : s.status = .running) : 0 ≤ s.esp + 1 := by
  obtain ⟨hlow, -⟩ := h.esp_of_running hs
  obtain ⟨⟨hsizes, -⟩, -⟩ := h
  simp only [stackFloor, lastCell] at hlow
  omega

/-- The range of `esp` in a state that is not that of an empty stack. -/
theorem espInRange_of_ne (hs : s.status ≠ .faulted .invalidStack) (h : stackFloor s.cfg - 1 ≤ s.esp ∧ s.esp ≤ lastCell s.cfg) :
    EspInRange s := ⟨fun e => absurd e hs, fun _ => h⟩

/-- A status other than that of an empty stack leaves a running core with its invariant. -/
theorem State.Inv.setStatus (h : s.Inv) (hs : s.status = .running) {st : Status} (hst : st ≠ .faulted .invalidStack) :
    (s.setStatus st).Inv :=
  have hesp := h.esp_of_running hs
  have ⟨hlegal, hwf, haddr, _⟩ := h
  ⟨hlegal, hwf, haddr, espInRange_of_ne hst hesp⟩

/-- Every instruction keeps the invariant. -/
theorem exec_keeps_inv (h : s.Inv) (hs : s.status = .running) (he : exec i s = .next t) : t.Inv := by
  obtain ⟨hlow, hhigh⟩ := h.esp_of_running hs
  have hinv := h
  obtain ⟨hlegal, hwf, haddr, -⟩ := h
  cases exec_cases he with
  | done w ip esp out hw hip hesp hout =>
    refine ⟨hlegal, wf_completed hwf w ip esp out, fun p hp => ?_, espInRange_of_ne (by simp [completed, hs]) ?_⟩
    · rcases mem_completed hp with hp | rfl | rfl
      · exact haddr p hp
      · exact WritesCell.le_lastCell (s := s) hlegal (hw p rfl).1
      · obtain ⟨hsizes, -⟩ := hlegal
        simp only [completed, lastCell]
        omega
    · rcases hesp with rfl | ⟨hmove, -⟩
      · exact ⟨hlow, hhigh⟩
      · exact hmove.inRange hlow
  | emptyStack hi hempty =>
    refine ⟨hlegal, hwf, haddr, fun _ => ?_, fun hne => absurd rfl hne⟩
    simp only [State.setStatus_esp, State.setEsp_esp, State.setStatus_cfg, State.setEsp_cfg]
    omega
  | popOutOfRange hi hl =>
    refine ⟨hlegal, hwf, haddr, espInRange_of_ne (by simp) ?_⟩
    simp only [State.setStatus_esp, State.setEsp_esp, State.setStatus_cfg, State.setEsp_cfg]
    omega
  | _ => exact hinv.setStatus hs (by simp)

/-- Settles O15: a step that runs an instruction by `exec_keeps_inv`; every other step only sets a status that leaves `esp` in its range. -/
theorem stepKeepsInvariant : Obligations.StepKeepsInvariant := by
  intro s t h hstep
  rcases step_cases hstep with ⟨hs, hc⟩ | ⟨-, rfl⟩
  · cases hc with
    | run i h0 hlt hf he => exact exec_keeps_inv h hs he
    | halt | negativeIp | invalid => exact h.setStatus hs (by simp)
  · exact h

/-- An instruction that takes no fault keeps every stored value inside `CELL_BOUND`. -/
theorem exec_keeps_bound (h : s.WithinBound) (he : exec i s = .next t) (hf : ∀ f, t.status ≠ .faulted f) : t.WithinBound := by
  obtain ⟨hmem, hesp, hout⟩ := h
  cases exec_cases he with
  | done w ip esp out hw hip hmove hemit =>
    refine ⟨fun p hp => ?_, ?_, ?_⟩
    · rcases mem_completed hp with hp | rfl | rfl
      · exact hmem p hp
      · exact (hw p rfl).2
      · exact hip
    · rcases hmove with rfl | ⟨-, hfit⟩
      · exact hesp
      · exact hfit
    · rcases hemit with rfl | ⟨-, v, -, -, rfl, hfit⟩
      · exact hout
      · intro x hx
        rcases List.mem_append.1 hx with hx | hx
        · exact hout x hx
        · rwa [List.mem_singleton.1 hx]
  | negativeShift | cellBound => exact ⟨hmem, hesp, hout⟩
  | _ => exact absurd rfl (hf _)

/-- Settles O16: a step runs an instruction, where `exec_keeps_bound` holds, or it stores nothing. -/
theorem stepKeepsCellBound : Obligations.StepKeepsCellBound := by
  intro s t h hstep hf
  rcases step_runs_or_stops hstep with ⟨i, -, he⟩ | ⟨st, rfl⟩
  · exact exec_keeps_bound h he hf
  · exact h

/-- A running core is running after an instruction exactly when the instruction completed and was counted. -/
theorem exec_counts (hs : s.status = .running) (he : exec i s = .next t) :
    (t.status = .running ∧ t.ops = s.ops + 1) ∨ (t.status ≠ .running ∧ t.ops = s.ops) := by
  cases exec_cases he with
  | done => exact .inl ⟨hs, rfl⟩
  | _ => exact .inr ⟨Status.noConfusion, rfl⟩

/-- Settles O19: an instruction by `exec_counts`; a step that runs none stops the core and counts nothing. -/
theorem counterCountsCompletedInstructions : Obligations.CounterCountsCompletedInstructions := by
  intro s t hs h
  rcases step_cases h with ⟨-, hc⟩ | ⟨hh, -⟩
  · cases hc with
    | run i h0 hlt hf he => exact exec_counts hs he
    | halt | negativeIp | invalid => exact .inr ⟨Status.noConfusion, rfl⟩
  · cases hs.symm.trans hh

end Sys2Proof.Machine

/-! SUPPORT. The instructions that write back (40_data_move.md, 41_arithmetic.md, 42_unary.md, 43_modulo.md R182, 46_stack.md R222): what
each is once its operands have values, and the whole next state of a write-back. -/
namespace Sys2Proof.Machine

variable {s : State} {i : Instr} {dest src : Operand} {d v e : Int} {len : Nat} {w : List Int}

/-! ## Each instruction once its operands have values -/

section Binary

variable (hd : resolve s dest = some d) (hv : resolve s src = some v)
include hd hv

theorem exec_mov : exec (.mov dest src) s = writeBack s dest 3 v := withOperands_eq _ hd hv

theorem exec_add : exec (.add dest src) s = writeBack s dest 3 (d + v) := withOperands_eq _ hd hv

theorem exec_sub : exec (.sub dest src) s = writeBack s dest 3 (d - v) := withOperands_eq _ hd hv

theorem exec_mul : exec (.mul dest src) s = writeBack s dest 3 (d * v) := withOperands_eq _ hd hv

theorem exec_and : exec (.and dest src) s = writeBack s dest 3 (bitAnd d v) := withOperands_eq _ hd hv

theorem exec_or : exec (.or dest src) s = writeBack s dest 3 (bitOr d v) := withOperands_eq _ hd hv

theorem exec_xor : exec (.xor dest src) s = writeBack s dest 3 (bitXor d v) := withOperands_eq _ hd hv

theorem exec_div (h0 : v ≠ 0) : exec (.div dest src) s = writeBack s dest 3 (tdiv d v) :=
  (withOperands_eq _ hd hv).trans (if_neg h0)

theorem exec_div_zero (h0 : v = 0) : exec (.div dest src) s = raise .divideByZero s :=
  (withOperands_eq _ hd hv).trans (if_pos h0)

theorem exec_mod_zero (h0 : v = 0) : exec (.mod dest src) s = raise .divideByZero s :=
  (withOperands_eq _ hd hv).trans (if_pos h0)

theorem exec_shl (h0 : 0 ≤ v) : exec (.shl dest src) s = writeBack s dest 3 (shiftLeft d v) :=
  (withOperands_eq _ hd hv).trans (if_neg (not_lt.2 h0))

theorem exec_shr (h0 : 0 ≤ v) : exec (.shr dest src) s = writeBack s dest 3 (shiftRight d v) :=
  (withOperands_eq _ hd hv).trans (if_neg (not_lt.2 h0))

theorem exec_shl_negative (h0 : v < 0) : exec (.shl dest src) s = refuse .negativeShift s :=
  (withOperands_eq _ hd hv).trans (if_pos h0)

theorem exec_shr_negative (h0 : v < 0) : exec (.shr dest src) s = refuse .negativeShift s :=
  (withOperands_eq _ hd hv).trans (if_pos h0)

theorem exec_cmp : exec (.cmp dest src) s = completeAdvance s (s.setCell 8 (cmpFlags d v)) 3 [cmpFlags d v] :=
  withOperands_eq _ hd hv

end Binary

section Unary

variable (hd : resolve s dest = some d)
include hd

theorem exec_inc : exec (.inc dest) s = writeBack s dest 2 (d + 1) := withDest_eq _ hd

theorem exec_dec : exec (.dec dest) s = writeBack s dest 2 (d - 1) := withDest_eq _ hd

theorem exec_not : exec (.not dest) s = writeBack s dest 2 (-d - 1) := withDest_eq _ hd

theorem exec_rem : exec (.rem dest) s = writeBack s dest 2 (s.cell 7) := withDest_eq _ hd

theorem exec_pop_empty (h : lastCell s.cfg < s.esp + 1) : exec (.pop dest) s = raise .invalidStack (s.setEsp (s.esp + 1)) :=
  (withDest_eq _ hd).trans (popThen_empty _ h)

theorem exec_pop (h0 : 0 ≤ s.esp + 1) (hl : s.esp + 1 ≤ lastCell s.cfg) : exec (.pop dest) s =
    writeBackFrom s (s.setEsp (s.esp + 1)) dest 2 (s.cell (s.esp + 1).toNat) [s.esp + 1] :=
  (withDest_eq _ hd).trans (popThen_eq _ h0 hl)

end Unary

/-! ## The whole next state of a write-back -/

/-- An instruction that moves `esp` to `e` and then writes `v` back changes nothing else. -/
theorem retires_of_writeBackFrom (he : exec i s = writeBackFrom s (s.setEsp e) dest len v w) (h : CanWriteBack s dest len v)
    (hw : ∀ x ∈ w, fits s.cfg x = true) :
    Retires i s (ipAfterWriteBack s dest len v) (cellsWith s dest.word.toNat v) e s.output := by
  obtain ⟨hlast, hv, hip⟩ := h
  have hr : inRange s.cfg dest.word.toNat = true := inRange_iff.2 ⟨Int.natCast_nonneg _, hlast⟩
  have hadvance : ((s.setEsp e).setCell dest.word.toNat v).ip + len = ipAfterWriteBack s dest len v := by
    rw [State.setCell_ip, State.setEsp_ip, ipAfterWriteBack]
  rw [← State.setCell_cell_eq_cellsWith, ← hadvance]
  refine retires_of_complete_setIp (u := (s.setEsp e).setCell dest.word.toNat v) (he.trans (writeBackFrom_eq hr)) ?_ ?_ rfl rfl rfl rfl
  · rwa [hadvance]
  · exact List.forall_mem_cons.2 ⟨hv, hw⟩

/-- An instruction that is the write-back of `v` writes `v` back, advances, and changes nothing else. -/
theorem writesBack_of_exec (he : exec i s = writeBack s dest len v) (h : CanWriteBack s dest len v) : WritesBack i s dest len v :=
  retires_of_writeBackFrom (e := s.esp) he h (by simp)

/-- Settles O30: `mov` is a write-back. -/
theorem movCopiesTheSource : Obligations.MovCopiesTheSource :=
  fun _ _ _ _ _ hd hv h => writesBack_of_exec (exec_mov hd hv) h

/-- Settles O31: `add`, `sub` and `mul` are write-backs. -/
theorem addSubMulAreExact : Obligations.AddSubMulAreExact :=
  fun _ _ _ _ _ hd hv =>
    ⟨writesBack_of_exec (exec_add hd hv), writesBack_of_exec (exec_sub hd hv), writesBack_of_exec (exec_mul hd hv)⟩

/-- Settles O38: `rem` is a write-back of cell 7. -/
theorem remFetchesTheRemainder : Obligations.RemFetchesTheRemainder :=
  fun _ _ _ hd h => writesBack_of_exec (exec_rem hd) h

/-- Settles O37: the divisor is tested before any write. -/
theorem modByZeroFaults : Obligations.ModByZeroFaults :=
  fun _ _ _ _ hd hv => exec_mod_zero hd hv rfl

/-! ## Division -/

/-- The truncating quotient and remainder make up the dividend. -/
theorem eq_mul_tdiv_add_tmod (d v : Int) : d = v * tdiv d v + tmod d v := (add_sub_cancel _ d).symm

/-- A negative remainder is that of a negative dividend. -/
theorem neg_of_tmod_neg (h : tmod d v < 0) : d < 0 := by
  rw [tmod_eq] at h
  by_contra hd
  exact absurd (Int.tmod_nonneg v (not_lt.1 hd)) (not_le.2 h)

/-- A positive remainder is that of a positive dividend. -/
theorem pos_of_tmod_pos (h : 0 < tmod d v) : 0 < d :=
  (tmod_eq_zero_or_pos_iff d v).elim (fun h0 => absurd h0 h.ne') (fun hiff => hiff.1 h)

/-- Settles O32: the quotient is `tdiv` and the remainder `tmod`, whose sign and size are known. -/
theorem divTruncatesTowardZero : Obligations.DivTruncatesTowardZero := by
  refine fun s dest src d v hd hv => ⟨exec_div_zero hd hv, fun h0 => ?_⟩
  exact ⟨tdiv d v, tmod d v, eq_mul_tdiv_add_tmod d v, abs_tmod_lt d h0, pos_of_tmod_pos, neg_of_tmod_neg,
    writesBack_of_exec (exec_div hd hv h0)⟩

/-! ## The operations on bits -/

/-- A bit of an integer that is not negative, in the form `simp` gives it. -/
theorem bit_natCast (a k : Nat) : bit (a : Int) k = a.testBit k := bit_ofNat a k

theorem bit_bitAnd (a b : Int) (k : Nat) : bit (bitAnd a b) k = (bit a k && bit b k) := by
  rcases a with a | a <;> rcases b with b | b <;>
    simp [bitAnd, bit_natCast, bit_negSucc, testBit_natAndNot, Bool.and_comm]

theorem bit_bitOr (a b : Int) (k : Nat) : bit (bitOr a b) k = (bit a k || bit b k) := by
  rcases a with a | a <;> rcases b with b | b <;>
    simp [bitOr, bit_natCast, bit_negSucc, testBit_natAndNot, Bool.or_comm]

theorem bit_bitXor (a b : Int) (k : Nat) : bit (bitXor a b) k = (bit a k ^^ bit b k) := by
  rcases a with a | a <;> rcases b with b | b <;> simp [bitXor, bit_natCast, bit_negSucc]

/-- The complement of an integer has the opposite bits. -/
theorem bit_complement (a : Int) (k : Nat) : bit (-a - 1) k = !bit a k := by
  rcases a with a | a
  · have hneg : -Int.ofNat a - 1 = Int.negSucc a := by rw [Int.negSucc_eq, Int.ofNat_eq_natCast]; omega
    rw [hneg, bit_negSucc, bit_ofNat]
  · have hneg : -Int.negSucc a - 1 = Int.ofNat a := by rw [Int.negSucc_eq, Int.ofNat_eq_natCast]; omega
    rw [hneg, bit_negSucc, bit_ofNat, Bool.not_not]

/-- Settles O33: each operation works bit by bit. -/
theorem andOrXorAreBitwise : Obligations.AndOrXorAreBitwise :=
  fun _ _ _ d v hd hv =>
    ⟨⟨bitAnd d v, bit_bitAnd d v, writesBack_of_exec (exec_and hd hv)⟩,
      ⟨bitOr d v, bit_bitOr d v, writesBack_of_exec (exec_or hd hv)⟩,
      ⟨bitXor d v, bit_bitXor d v, writesBack_of_exec (exec_xor hd hv)⟩⟩

/-- Settles O35: the results are those the instructions write back, the bits of `not` by `bit_complement`. -/
theorem incDecNotResults : Obligations.IncDecNotResults :=
  fun _ _ d hd =>
    ⟨writesBack_of_exec (exec_inc hd), writesBack_of_exec (exec_dec hd), writesBack_of_exec (exec_not hd), bit_complement d⟩

/-! ## The shifts -/

/-- A shift to the left by the count `n` writes the product by `2 ^ n` back. -/
theorem exec_shl_natCast {n : Nat} (hd : resolve s dest = some d) (hv : resolve s src = some (n : Int)) :
    exec (.shl dest src) s = writeBack s dest 3 (d * 2 ^ n) :=
  exec_shl hd hv (Int.natCast_nonneg n)

/-- A shift to the right by the count `n` writes the floored quotient by `2 ^ n` back. -/
theorem exec_shr_natCast {n : Nat} (hd : resolve s dest = some d) (hv : resolve s src = some (n : Int)) :
    exec (.shr dest src) s = writeBack s dest 3 (Int.fdiv d (2 ^ n)) :=
  exec_shr hd hv (Int.natCast_nonneg n)

/-- Settles O34: a count is a natural number, and the floored quotient is the one between the two multiples. -/
theorem shiftsAreExact : Obligations.ShiftsAreExact := by
  intro s dest src d v hd hv
  refine ⟨fun n hn => ?_, fun n hn => ?_, fun h0 => ⟨exec_shl_negative hd hv h0, exec_shr_negative hd hv h0⟩⟩
  · exact writesBack_of_exec (exec_shl_natCast hd (hn ▸ hv))
  · have hpos : (0 : Int) < 2 ^ n := by positivity
    refine ⟨Int.fdiv d (2 ^ n), ?_, ?_, writesBack_of_exec (exec_shr_natCast hd (hn ▸ hv))⟩
    · rw [Int.fdiv_eq_ediv_of_nonneg _ hpos.le]
      exact Int.ediv_mul_le d hpos.ne'
    · rw [Int.fdiv_eq_ediv_of_nonneg _ hpos.le]
      exact Int.lt_ediv_add_one_mul_self d hpos

end Sys2Proof.Machine

/-! SUPPORT. The next states of `cmp`, `prn`, `push` and `pop` (44_compare.md, 48_nop_prn.md, 46_stack.md) and of an untaken jump
(45_jumps.md). -/
namespace Sys2Proof.Machine

variable {s : State} {i : Instr} {c : State → Bool} {dest : Operand} {d : Int}

/-- The three values `cmp` writes. -/
theorem cmpFlags_eq (d v : Int) : cmpFlags d v = if d = v then 1 else if d < v then 2 else 0 := by
  rcases lt_trichotomy d v with h | rfl | h
  · simp [cmpFlags, sub_eq_zero, h, h.ne]
  · simp [cmpFlags]
  · simp [cmpFlags, sub_eq_zero, h.ne', h.not_gt]

/-- Settles O39: `cmp` writes one of the three values of `cmpFlags` to cell 8 and advances. -/
theorem cmpSetsFlags : Obligations.CmpSetsFlags := by
  intro s dest src d v hd hv h0 h1 h2 hip
  have hfits : fits s.cfg (cmpFlags d v) = true := by rw [cmpFlags_eq]; split_ifs <;> assumption
  rw [← cmpFlags_eq]
  exact retires_of_completeAdvance_setCell (by decide) (exec_cmp hd hv) hfits hip

/-- A conditional jump whose condition does not hold goes on past its two words. -/
theorem retires_of_exec_eq_jumpIf_untaken (he : exec i s = jumpIf c dest s) (h : resolve s dest = some d)
    (hip : fits s.cfg (s.ip + 2) = true) (hc : c s = false) : Retires i s (s.ip + 2) s.cell s.esp s.output :=
  retires_of_exec_eq_jumpTo ((he.trans (jumpIf_eq h)).trans (by rw [hc]; rfl)) hip

/-- Settles O41: where the condition of R201 fails, the model's condition is false, and then the jump is not taken. -/
theorem untakenJumpAdvances : Obligations.UntakenJumpAdvances := by
  intro s dest d h hip
  refine ⟨fun hc => ?je, fun hc => ?jne, fun hc => ?jl, fun hc => ?jle, fun hc => ?jg, fun hc => ?jge⟩
  case je => exact retires_of_exec_eq_jumpIf_untaken (c := condE) rfl h hip hc
  case jne => exact retires_of_exec_eq_jumpIf_untaken (c := condNe) rfl h hip (by simp [condNe, hc])
  case jl => exact retires_of_exec_eq_jumpIf_untaken (c := condL) rfl h hip (by simp [condL, hc])
  case jle => exact retires_of_exec_eq_jumpIf_untaken (c := condLe) rfl h hip (by simp [condLe, hc])
  case jg => exact retires_of_exec_eq_jumpIf_untaken (c := condG) rfl h hip (by rcases hc with hc | hc <;> simp [condG, hc])
  case jge => exact retires_of_exec_eq_jumpIf_untaken (c := condGe) rfl h hip (by simp [condGe, hc])

/-- `prn` ends by setting `ip` after the output. -/
theorem exec_prn (h : resolve s dest = some d) : exec (.prn dest) s = complete s ((s.emit d).setIp (s.ip + 2)) [d] :=
  withDest_eq _ h

/-- Settles O48: `prn` appends to the output and then only sets `ip`. -/
theorem prnEmitsItsOperand : Obligations.PrnEmitsItsOperand :=
  fun _ _ _ h hd hip => retires_of_complete_setIp (exec_prn h) hip (by simpa using hd) rfl rfl rfl rfl

/-! ## push and pop -/

/-- The stack of a legal configuration lies above the registers, `ip`, `REM` and `FLAGS`. -/
theorem nine_le_esp (hlegal : s.cfg.Legal) (hf : stackFloor s.cfg ≤ s.esp) : 9 ≤ s.esp := by
  obtain ⟨hsizes, -⟩ := hlegal
  simp only [stackFloor, lastCell] at hf
  omega

/-- A `push` below the floor. -/
theorem exec_push_overflow (h : resolve s dest = some d) (hf : s.esp < stackFloor s.cfg) :
    exec (.push dest) s = raise .stackOverflow s :=
  (withDest_eq _ h).trans (pushThen_overflow _ hf)

/-- A `push` that pushes does not write `ip`, so it goes on past its two words. -/
theorem exec_push (hlegal : s.cfg.Legal) (h : resolve s dest = some d) (hf : stackFloor s.cfg ≤ s.esp)
    (hl : s.esp ≤ lastCell s.cfg) : exec (.push dest) s =
      complete s (((s.setCell s.esp.toNat d).setEsp (s.esp - 1)).setIp (s.ip + 2)) [d, s.esp - 1] := by
  have hne : s.esp.toNat ≠ 6 := by have := nine_le_esp hlegal hf; omega
  have hip : ((s.setCell s.esp.toNat d).setEsp (s.esp - 1)).ip = s.ip := by rw [State.setEsp_ip, State.setCell_ip, if_neg hne]
  rw [← hip]
  exact (withDest_eq _ h).trans (pushThen_eq _ hf (esp_inRange hlegal hf hl))

/-- Settles O43: the fault is that of `exec_push_overflow`, the next state that of `exec_push`. -/
theorem pushStoresAndDecrements : Obligations.PushStoresAndDecrements := by
  intro s dest d hlegal h
  refine ⟨exec_push_overflow h, fun hf hl hd hesp hip => ?_⟩
  rw [← State.setCell_cell_eq_cellsWith]
  exact retires_of_complete_setIp (exec_push hlegal h hf hl) hip (by simp [hd, hesp]) rfl rfl rfl rfl

/-- Settles O44: the fault is that of `exec_pop_empty`, the next state that of a write-back after `esp` went up. -/
theorem popLoadsAndIncrements : Obligations.PopLoadsAndIncrements := by
  intro s dest d h
  refine ⟨exec_pop_empty h, fun h0 hl hesp hback => ?_⟩
  exact retires_of_writeBackFrom (exec_pop h h0 hl) hback (by simpa using hesp)

end Sys2Proof.Machine

/-! SUPPORT. The frame of every instruction (10_state.md R23, R27, R29, R31): which cells it can change, read off `exec_cases`; and what
the write-backs leave in FLAGS (90_conflicts.md C2, C3). -/
namespace Sys2Proof.Machine

variable {i : Instr} {s t : State} {dest src : Operand} {d v ip esp : Int} {out : List Int} {a len : Nat}

/-- Of the cells but `ip`, a completed instruction changed the one it wrote. -/
theorem eq_some_of_completed_cell_ne {w : Option (Nat × Int)} (ha : a ≠ 6) (h : (completed s w ip esp out).cell a ≠ s.cell a) :
    ∃ v, w = some (a, v) := by
  rcases w with _ | ⟨b, v⟩
  · exact absurd ((State.setIp_cell s ip a).trans (if_neg ha)) h
  · have hcell : (completed s (some (b, v)) ip esp out).cell a = if a = b then v else s.cell a :=
      ((State.setIp_cell (s.setCell b v) ip a).trans (if_neg ha)).trans (s.setCell_cell b a v)
    by_cases hab : a = b
    · exact ⟨v, by rw [hab]⟩
    · exact absurd (hcell.trans (if_neg hab)) h

/-- An instruction that changed a cell but `ip` is one that writes it, and it completed. -/
theorem writesCell_of_exec (he : exec i s = .next t) (ha : a ≠ 6) (h : t.cell a ≠ s.cell a) :
    WritesCell i s a ∧ t.ops = s.ops + 1 := by
  cases exec_cases he with
  | done w ip esp out hw =>
    obtain ⟨v, rfl⟩ := eq_some_of_completed_cell_ne ha h
    exact ⟨(hw _ rfl).1, rfl⟩
  | _ => exact absurd rfl h

/-- An instruction moves `esp` at most by one, down for `push` and `call`, up for `pop` and `ret`. -/
theorem exec_esp_cases (he : exec i s = .next t) : t.esp = s.esp ∨
    ((i.mnemonic = .push ∨ i.mnemonic = .call) ∧ t.esp = s.esp - 1) ∨
    ((i.mnemonic = .pop ∨ i.mnemonic = .ret) ∧ t.esp = s.esp + 1) := by
  cases exec_cases he with
  | done w ip esp out hw hip hesp hout =>
    rcases hesp with hesp | ⟨⟨hpush, -, -, hdown⟩ | ⟨hpop, -, hup⟩, -⟩
    · exact .inl hesp
    · exact .inr (.inl ⟨hpush, hdown⟩)
    · exact .inr (.inr ⟨hpop, hup⟩)
  | emptyStack hi => exact .inr (.inr ⟨hi, rfl⟩)
  | popOutOfRange hi => exact .inr (.inr ⟨hi.elim And.left .inl, rfl⟩)
  | _ => exact .inl rfl

/-- The instructions with the mnemonics of a push. -/
theorem push_or_call (h : i.mnemonic = .push ∨ i.mnemonic = .call) : (∃ dest, i = .push dest) ∨ ∃ dest, i = .call dest := by
  refine h.imp (fun h => ?_) (fun h => ?_) <;>
  · obtain ⟨dest, -, rfl⟩ := Instr.eq_buildInstr_of_mnemonic h
    exact ⟨dest, rfl⟩

/-- The instructions with the mnemonics of a pop. -/
theorem pop_or_ret (h : i.mnemonic = .pop ∨ i.mnemonic = .ret) : (∃ dest, i = .pop dest) ∨ i = .ret := by
  refine h.imp (fun h => ?_) (fun h => ?_)
  · obtain ⟨dest, -, rfl⟩ := Instr.eq_buildInstr_of_mnemonic h
    exact ⟨dest, rfl⟩
  · obtain ⟨-, -, rfl⟩ := Instr.eq_buildInstr_of_mnemonic h
    rfl

/-- Settles O25: the cells by `writesCell_of_exec`, `esp` by `exec_esp_cases`. -/
theorem frameOfEveryInstruction : Obligations.FrameOfEveryInstruction := by
  refine fun i s t he => ⟨fun a ha hne => ?_, ?_⟩
  · rcases (writesCell_of_exec he ha hne).1 with ⟨hw, dest, hd, ha, -⟩ | ⟨hi, ha⟩ | ⟨hi, ha⟩ | ⟨hi, ha, -⟩
    · exact .inl ⟨hw, dest, hd, ha⟩
    · exact .inr (.inl ⟨Instr.eq_buildInstr_of_mnemonic hi, ha⟩)
    · exact .inr (.inr (.inl ⟨Instr.eq_buildInstr_of_mnemonic hi, ha⟩))
    · exact .inr (.inr (.inr ⟨push_or_call hi, ha⟩))
  · exact (exec_esp_cases he).imp_right (.imp (And.imp_left push_or_call) (And.imp_left pop_or_ret))

/-! ## FLAGS -/

/-- A `cmp` that completed left one of its three values in FLAGS, with the overflow flag clear. -/
theorem cmp_flags_values (he : exec (.cmp dest src) s = .next t) (hops : t.ops = s.ops + 1) :
    (t.flags = 0 ∨ t.flags = 1 ∨ t.flags = 2) ∧ t.of = false := by
  obtain ⟨d, hd, hk⟩ := withDest_completed he hops
  obtain ⟨v, hv, -⟩ := withDest_completed hk hops
  have hf := cmp_flags hd hv he hops
  obtain ⟨-, -, hof⟩ := bits_cmpFlags d v
  refine ⟨?_, by rw [State.of, hf, hof]⟩
  rw [hf, cmpFlags_eq]
  split_ifs
  · exact .inr (.inl rfl)
  · exact .inr (.inr rfl)
  · exact .inl rfl

/-- An instruction that leaves `v` in cell 8 leaves it as the whole of FLAGS. -/
theorem flags_of_retires (h8 : dest.word.toNat = 8) (h : Retires i s ip (cellsWith s dest.word.toNat v) esp out) :
    ∃ t, exec i s = .next t ∧ t.flags = v ∧ t.of = bit v 2 ∧ t.ops = s.ops + 1 := by
  obtain ⟨t, he, -, hcells, -, -, hops, -⟩ := h
  have hf : t.flags = v := by rw [State.flags, hcells 8 (by decide), cellsWith, if_pos h8.symm]
  exact ⟨t, he, hf, by rw [State.of, hf], hops⟩

/-- An instruction that is a write-back to cell 8 stores its result in FLAGS. -/
theorem storesInFlags_of_exec (h8 : dest.word.toNat = 8) (he : exec i s = writeBack s dest len v) :
    StoresInFlags i s dest len v :=
  fun h => flags_of_retires h8 (writesBack_of_exec he h)

/-- Settles O26: the changes of cell 8 by `writesCell_of_exec`, where the stack lies above it; the write-backs by their equations. -/
theorem onlyCmpComputesFlags : Obligations.OnlyCmpComputesFlags := by
  refine ⟨fun i s t hlegal he hne => ?only, fun s dest src d v hd hv h8 => ?binary, fun s dest d hd h8 => ?unary⟩
  case only =>
    obtain ⟨hw, hops⟩ := writesCell_of_exec he (by decide) hne
    rcases hw with ⟨hwrites, dest, hd, ha, -⟩ | ⟨-, ha⟩ | ⟨hi, -⟩ | ⟨-, ha, hf, -⟩
    · exact .inr ⟨hwrites, dest, hd, ha.symm⟩
    · exact absurd ha (by decide)
    · obtain ⟨dest, src, rfl⟩ := Instr.eq_buildInstr_of_mnemonic hi
      exact .inl ⟨⟨dest, src, rfl⟩, cmp_flags_values he hops⟩
    · have := nine_le_esp hlegal hf
      omega
  case binary =>
    refine ⟨storesInFlags_of_exec h8 (exec_mov hd hv), storesInFlags_of_exec h8 (exec_add hd hv),
      storesInFlags_of_exec h8 (exec_sub hd hv), storesInFlags_of_exec h8 (exec_mul hd hv),
      fun h0 => storesInFlags_of_exec h8 (exec_div hd hv h0),
      ⟨_, bit_bitAnd d v, storesInFlags_of_exec h8 (exec_and hd hv)⟩, ⟨_, bit_bitOr d v, storesInFlags_of_exec h8 (exec_or hd hv)⟩,
      ⟨_, bit_bitXor d v, storesInFlags_of_exec h8 (exec_xor hd hv)⟩, fun n hn => ?_⟩
    subst hn
    exact ⟨storesInFlags_of_exec h8 (exec_shl_natCast hd hv), storesInFlags_of_exec h8 (exec_shr_natCast hd hv)⟩
  case unary =>
    refine ⟨storesInFlags_of_exec h8 (exec_inc hd), storesInFlags_of_exec h8 (exec_dec hd), storesInFlags_of_exec h8 (exec_not hd),
      storesInFlags_of_exec h8 (exec_rem hd), fun h0 hl hesp h => ?_⟩
    exact flags_of_retires h8 (retires_of_writeBackFrom (exec_pop hd h0 hl) h (by simpa using hesp))

end Sys2Proof.Machine

/-! SUPPORT. Faults and refusals (60_exceptions.md R250 to R254): what they leave, and where each comes from. -/
namespace Sys2Proof.Machine

variable {i : Instr} {s t : State} {dest src o : Operand} {d v : Int}

/-! ## What they leave -/

/-- An instruction that takes a fault leaves all but the status as it was, or it is a pop that left `esp` one up. -/
theorem exec_fault_leaves {f : Fault} (h : s.Inv) (hs : s.status = .running) (he : exec i s = .next t)
    (ht : t.status = .faulted f) : t = s.setStatus (.faulted f) ∨ (t = (s.setEsp (s.esp + 1)).setStatus (.faulted f) ∧
      (((∃ dest, i = .pop dest) ∨ i = .ret) ∧ f = .invalidStack ∨ (∃ dest, i = .pop dest) ∧ f = .outOfRange)) := by
  cases exec_cases he with
  | done => cases hs.symm.trans ht
  | emptyStack hi => cases ht; exact .inr ⟨rfl, .inl ⟨pop_or_ret hi, rfl⟩⟩
  | popOutOfRange hi hl =>
    cases ht
    refine .inr ⟨rfl, .inr ⟨?_, rfl⟩⟩
    rcases hi with ⟨-, hneg⟩ | hi
    · exact absurd (h.esp_succ_nonneg hs) (not_le.2 hneg)
    · obtain ⟨dest, -, rfl⟩ := Instr.eq_buildInstr_of_mnemonic hi
      exact ⟨dest, rfl⟩
  | negativeShift | cellBound => cases ht
  | _ => cases ht; exact .inl rfl

/-- Settles O22: an instruction by `exec_fault_leaves`; a step that runs none only sets the status. -/
theorem faultLeavesOnlyStatusAndEsp : Obligations.FaultLeavesOnlyStatusAndEsp := by
  intro s t f h hs hstep ht
  rcases step_runs_or_stops hstep with ⟨i, hf, he⟩ | ⟨st, rfl⟩
  · exact (exec_fault_leaves h hs he ht).imp_right (And.imp_right (fun hcause => ⟨i, hf, hcause⟩))
  · cases ht
    exact .inl rfl

/-- A refused instruction leaves all but the status as it was; it is a shift by a negative count, or the core has a `CELL_BOUND`. -/
theorem exec_refused {r : RefusalReason} (hs : s.status = .running) (he : exec i s = .next t) (ht : t.status = .refused r) :
    t = s.setStatus (.refused r) ∧ (s.cfg.cellBound = none → r = .negativeShift ∧
      ∃ dest src v, resolve s src = some v ∧ v < 0 ∧ (i = .shl dest src ∨ i = .shr dest src)) := by
  cases exec_cases he with
  | done => cases hs.symm.trans ht
  | negativeShift hi src hsrc v hv hneg =>
    cases ht
    refine ⟨rfl, fun _ => ⟨rfl, ?_⟩⟩
    rcases hi with hi | hi
    · obtain ⟨dest, src', rfl⟩ := Instr.eq_buildInstr_of_mnemonic hi
      cases hsrc
      exact ⟨dest, src, v, hv, hneg, .inl rfl⟩
    · obtain ⟨dest, src', rfl⟩ := Instr.eq_buildInstr_of_mnemonic hi
      cases hsrc
      exact ⟨dest, src, v, hv, hneg, .inr rfl⟩
  | cellBound b hb =>
    cases ht
    exact ⟨rfl, fun hnone => absurd (hb.symm.trans hnone) (by simp)⟩
  | _ => cases ht

/-- Settles O23: an instruction by `exec_refused`; a step that runs none is not refused. -/
theorem refusedStepWritesNothing : Obligations.RefusedStepWritesNothing := by
  intro s t r hs hstep ht
  rcases step_cases hstep with ⟨-, hc⟩ | ⟨hh, -⟩
  · cases hc with
    | run i h0 hlt hf he =>
      rw [hf]
      refine (exec_refused hs he ht).imp_right (fun hcause hnone => ?_)
      obtain ⟨hr, dest, src, v, hv, hneg, hi⟩ := hcause hnone
      exact ⟨hr, dest, src, v, hv, hneg, by simpa using hi⟩
    | halt | negativeIp | invalid => cases ht
  · cases hs.symm.trans hh

/-! ## Operands outside the machine image -/

/-- An address past LAST is out of range. -/
theorem inRange_of_last_lt {c : Config} {a : Int} (h : lastCell c < a) : inRange c a = false := by
  rw [← Bool.not_eq_true, inRange_iff]
  omega

/-- An addressed operand past LAST has no value. -/
theorem resolve_none (ha : o.addressed = true) (h : lastCell s.cfg < o.word.toNat) : resolve s o = none := by
  rw [resolve, if_pos ha, memRead_none (inRange_of_last_lt h)]

/-- A direct operand is its word. -/
theorem resolve_direct (ha : o.addressed = false) : resolve s o = some (o.word.toNat : Int) := by
  rw [resolve, ha]
  rfl

/-- Every instruction with a destination resolves it first. -/
theorem exec_eq_withDest (h : i.dest? = some dest) (s : State) : ∃ k, exec i s = withDest s dest k := by
  cases i with
  | nop | ret => cases h
  | _ => cases h; exact ⟨_, rfl⟩

/-- Every instruction with a source resolves both operands first. -/
theorem exec_eq_withOperands (hd : i.dest? = some dest) (hs : i.src? = some src) (s : State) :
    ∃ k, exec i s = withOperands s dest src k := by
  cases i with
  | mov | cmp | mod | add | sub | mul | div | and | or | xor | shl | shr => cases hd; cases hs; exact ⟨_, rfl⟩
  | _ => cases hs

/-- Settles O28: the values are those of `resolve`, and every instruction resolves its operands first, the destination before the
source. -/
theorem operandValuesAndTheirFault : Obligations.OperandValuesAndTheirFault := by
  refine ⟨fun s o => ⟨resolve_direct, fun ha hl => ?_, resolve_none⟩, fun i s dest hdest ha hl => ?_,
    fun i s dest src d hdest hsrc hd ha hl => ?_⟩
  · rw [resolve, if_pos ha, memRead_eq (inRange_iff.2 ⟨Int.natCast_nonneg _, hl⟩), Int.toNat_natCast]
  · obtain ⟨k, hk⟩ := exec_eq_withDest hdest s
    exact hk.trans (withDest_none k (resolve_none ha hl))
  · obtain ⟨k, hk⟩ := exec_eq_withOperands hdest hsrc s
    exact (hk.trans (withDest_eq _ hd)).trans (withDest_none _ (resolve_none ha hl))

/-- An instruction that is a write-back past LAST faults with nothing written. -/
theorem faults_of_exec {len : Nat} (hl : lastCell s.cfg < dest.word.toNat) (he : exec i s = writeBack s dest len v) :
    Faults i s .outOfRange :=
  he.trans (writeBackFrom_none (inRange_of_last_lt hl))

/-- Settles O29: a direct destination has a value, so the write-back is reached. -/
theorem writeBackOutsideTheImageFaults : Obligations.WriteBackOutsideTheImageFaults := by
  intro s dest src v ha hl
  have hd : resolve s dest = some (dest.word.toNat : Int) := resolve_direct ha
  refine ⟨fun hv => ?_, faults_of_exec hl (exec_inc hd), faults_of_exec hl (exec_dec hd), faults_of_exec hl (exec_not hd),
    faults_of_exec hl (exec_rem hd), fun h0 htop => ?_⟩
  · exact ⟨faults_of_exec hl (exec_mov hd hv), faults_of_exec hl (exec_add hd hv), faults_of_exec hl (exec_sub hd hv),
      faults_of_exec hl (exec_mul hd hv), faults_of_exec hl (exec_and hd hv), faults_of_exec hl (exec_or hd hv),
      faults_of_exec hl (exec_xor hd hv), fun h0 => faults_of_exec hl (exec_div hd hv h0),
      fun h0 => ⟨faults_of_exec hl (exec_shl hd hv h0), faults_of_exec hl (exec_shr hd hv h0)⟩⟩
  · exact (exec_pop hd h0 htop).trans (writeBackFrom_none (t := s.setEsp (s.esp + 1)) (inRange_of_last_lt hl))

/-! ## Where OutOfRange comes from -/

/-- An addressed operand of the instruction, or its write-back destination, lies past LAST. -/
def OperandPastLast (i : Instr) (s : State) : Prop :=
  ∃ o : Operand, lastCell s.cfg < o.word.toNat ∧
    ((o.addressed = true ∧ (i.dest? = some o ∨ i.src? = some o)) ∨ (i.mnemonic.writesDest = true ∧ i.dest? = some o))

/-- If the answer is the fault OutOfRange, an operand of the instruction lies past LAST. -/
def OutOfRangeExplained (i : Instr) (s : State) (r : Result) : Prop :=
  ∀ t, r = .next t → t.status = .faulted .outOfRange → OperandPastLast i s

/-- An answer with another status needs no explanation. -/
theorem explained_of_status_ne {u : State} (h : u.status ≠ .faulted .outOfRange) : OutOfRangeExplained i s (.next u) := by
  rintro t ⟨⟩ ht
  exact absurd ht h

/-- A word is an address that is not negative, so out of range it is past LAST. -/
theorem last_lt_of_inRange_word (h : inRange s.cfg o.word.toNat = false) : lastCell s.cfg < o.word.toNat := by
  by_contra hl
  rw [inRange_iff.2 ⟨Int.natCast_nonneg _, not_lt.1 hl⟩] at h
  cases h

theorem explained_withDest {k : Int → Result} (ho : i.dest? = some o ∨ i.src? = some o)
    (hk : ∀ d, OutOfRangeExplained i s (k d)) : OutOfRangeExplained i s (withDest s o k) := by
  rcases resolve_cases s o with ⟨-, hd⟩ | ⟨-, -, hd⟩ | ⟨ha, hr, -⟩
  · rw [withDest_eq k hd]; exact hk _
  · rw [withDest_eq k hd]; exact hk _
  · exact fun _ _ _ => ⟨o, last_lt_of_inRange_word hr, .inl ⟨ha, ho⟩⟩

theorem explained_withOperands {k : Int → Int → Result} (hd : i.dest? = some dest) (hs : i.src? = some src)
    (hk : ∀ d v, OutOfRangeExplained i s (k d v)) : OutOfRangeExplained i s (withOperands s dest src k) :=
  explained_withDest (.inl hd) (fun d => explained_withDest (.inr hs) (hk d))

theorem explained_ite {c : Prop} [Decidable c] {a b : Result} (ha : OutOfRangeExplained i s a) (hb : OutOfRangeExplained i s b) :
    OutOfRangeExplained i s (if c then a else b) := by
  split
  · exact ha
  · exact hb

section Running

variable (hs : s.status = .running)
include hs

theorem explained_complete {w : List Int} (ht : t.status = s.status) : OutOfRangeExplained i s (complete s t w) := by
  rcases complete_cases s t w with ⟨e, -⟩ | ⟨e, -⟩
  · rw [e]
    exact explained_of_status_ne (by simp [ht, hs])
  · rw [e]
    exact explained_of_status_ne (by simp)

theorem explained_writeBackFrom {len : Nat} {w : List Int} (ht : t.status = s.status) (hcfg : t.cfg = s.cfg)
    (hw : i.mnemonic.writesDest = true) (hd : i.dest? = some dest) :
    OutOfRangeExplained i s (writeBackFrom s t dest len v w) := by
  rcases hr : inRange t.cfg dest.word.toNat with _ | _
  · exact fun _ _ _ => ⟨dest, last_lt_of_inRange_word (hcfg ▸ hr), .inr ⟨hw, hd⟩⟩
  · rw [writeBackFrom_eq hr]
    exact explained_complete hs ht

theorem explained_writeBack {len : Nat} (hw : i.mnemonic.writesDest = true) (hd : i.dest? = some dest) :
    OutOfRangeExplained i s (writeBack s dest len v) :=
  explained_writeBackFrom hs rfl rfl hw hd

theorem explained_jumpIf {c : State → Bool} (hd : i.dest? = some dest) : OutOfRangeExplained i s (jumpIf c dest s) :=
  explained_withDest (.inl hd) (fun _ => explained_ite (explained_complete hs rfl) (explained_complete hs rfl))

variable (h : s.Inv)
include h

/-- With the invariant the cell a push writes exists. -/
theorem explained_pushThen {k : State → Result}
    (hk : OutOfRangeExplained i s (k ((s.setCell s.esp.toNat v).setEsp (s.esp - 1)))) :
    OutOfRangeExplained i s (pushThen s v k) := by
  by_cases hf : s.esp < stackFloor s.cfg
  · rw [pushThen_overflow k hf]
    exact explained_of_status_ne (by simp)
  · rwa [pushThen_eq k (not_lt.1 hf) (esp_inRange h.1 (not_lt.1 hf) (h.esp_of_running hs).2)]

/-- With the invariant the cell a pop reads exists. -/
theorem explained_popThen {k : State → Int → Result}
    (hk : OutOfRangeExplained i s (k (s.setEsp (s.esp + 1)) (s.cell (s.esp + 1).toNat))) :
    OutOfRangeExplained i s (popThen s k) := by
  by_cases hl : lastCell s.cfg < s.esp + 1
  · rw [popThen_empty k hl]
    exact explained_of_status_ne (by simp)
  · rwa [popThen_eq k (h.esp_succ_nonneg hs) (not_lt.1 hl)]

/-- In a state with the invariant every OutOfRange comes from an operand past LAST. -/
theorem exec_outOfRange_explained (i : Instr) : OutOfRangeExplained i s (exec i s) := by
  cases i with
  | nop => exact explained_complete hs rfl
  | mov dest src | add dest src | sub dest src | mul dest src | and dest src | or dest src | xor dest src =>
    exact explained_withOperands rfl rfl (fun _ _ => explained_writeBack hs rfl rfl)
  | div dest src | shl dest src | shr dest src =>
    exact explained_withOperands rfl rfl (fun _ _ =>
      explained_ite (explained_of_status_ne (by simp)) (explained_writeBack hs rfl rfl))
  | cmp dest src => exact explained_withOperands rfl rfl (fun _ _ => explained_complete hs rfl)
  | mod dest src =>
    exact explained_withOperands rfl rfl (fun _ _ =>
      explained_ite (explained_of_status_ne (by simp)) (explained_complete hs rfl))
  | jmp dest | prn dest => exact explained_withDest (.inl rfl) (fun _ => explained_complete hs rfl)
  | je dest | jne dest | jl dest | jle dest | jg dest | jge dest => exact explained_jumpIf hs rfl
  | rem dest | inc dest | dec dest | not dest => exact explained_withDest (.inl rfl) (fun _ => explained_writeBack hs rfl rfl)
  | push dest | call dest => exact explained_withDest (.inl rfl) (fun _ => explained_pushThen hs h (explained_complete hs rfl))
  | pop dest =>
    exact explained_withDest (.inl rfl) (fun _ => explained_popThen hs h (explained_writeBackFrom hs rfl rfl rfl rfl))
  | ret => rw [exec_ret]; exact explained_popThen hs h (explained_complete hs rfl)

end Running

/-- The instructions that divide. -/
theorem div_or_mod (hi : i.mnemonic = .div ∨ i.mnemonic = .mod) (hs : i.src? = some src) :
    ∃ dest, i = .div dest src ∨ i = .mod dest src := by
  rcases hi with hi | hi
  · obtain ⟨dest, src', rfl⟩ := Instr.eq_buildInstr_of_mnemonic hi
    cases hs
    exact ⟨dest, .inl rfl⟩
  · obtain ⟨dest, src', rfl⟩ := Instr.eq_buildInstr_of_mnemonic hi
    cases hs
    exact ⟨dest, .inr rfl⟩

/-- The four faults an instruction can take, and the condition of each but OutOfRange. -/
theorem exec_fault_cases {f : Fault} (hs : s.status = .running) (he : exec i s = .next t) (ht : t.status = .faulted f) :
    f = .outOfRange ∨
    (f = .invalidStack ∧ ((∃ dest, i = .pop dest) ∨ i = .ret) ∧ lastCell s.cfg < s.esp + 1) ∨
    (f = .stackOverflow ∧ ((∃ dest, i = .push dest) ∨ ∃ dest, i = .call dest) ∧ s.esp < stackFloor s.cfg) ∨
    (f = .divideByZero ∧ ∃ dest src, (i = .div dest src ∨ i = .mod dest src) ∧ resolve s src = some 0) := by
  cases exec_cases he with
  | done => cases hs.symm.trans ht
  | outOfRange | popOutOfRange => cases ht; exact .inl rfl
  | emptyStack hi hl => cases ht; exact .inr (.inl ⟨rfl, pop_or_ret hi, hl⟩)
  | overflow hi hl => cases ht; exact .inr (.inr (.inl ⟨rfl, push_or_call hi, hl⟩))
  | zeroDivisor hi src hsrc hv =>
    cases ht
    obtain ⟨dest, hi⟩ := div_or_mod hi hsrc
    exact .inr (.inr (.inr ⟨rfl, dest, src, hi, hv⟩))
  | negativeShift | cellBound => cases ht

/-- Settles O24: the faults are those of `exec_fault_cases`, and OutOfRange is explained by `exec_outOfRange_explained`. -/
theorem faultCauses : Obligations.FaultCauses := by
  intro i s t f hs he ht
  rcases exec_fault_cases hs he ht with rfl | ⟨rfl, h⟩ | ⟨rfl, h⟩ | ⟨rfl, h⟩
  · exact ⟨by simp, by simp, by simp, by simp, fun _ hinv => exec_outOfRange_explained hs hinv i t he ht⟩
  · exact ⟨by simp, fun _ => h, by simp, by simp, by simp⟩
  · exact ⟨by simp, by simp, fun _ => h, by simp, by simp⟩
  · exact ⟨by simp, by simp, by simp, fun _ => h, by simp⟩

end Sys2Proof.Machine

/-! SUPPORT. A finite realisation beside the unbounded core (10_state.md R22, 41_arithmetic.md R152): with a `CELL_BOUND` every shared
operation, and so every instruction, refuses or answers as without it. -/
namespace Sys2Proof.Machine

/-- The same core in a finite realisation. -/
def State.withBound (b : CellBound) (s : State) : State := { s with cfg := { s.cfg with cellBound := some b } }

/-- The bounded answer `rb` refuses the step from `s` with nothing written, or it is the unbounded answer `r`. -/
def AgreesOrRefuses (b : CellBound) (s : State) (r rb : Result) : Prop :=
  rb = refuse .cellBound (s.withBound b) ∨ ∃ t, r = .next t ∧ rb = .next (t.withBound b)

/-- Every value fits where there is no bound. -/
theorem fits_of_cellBound_none {c : Config} (h : c.cellBound = none) (v : Int) : fits c v = true := by
  rw [fits, h]

variable {b : CellBound} {s t : State} {dest src : Operand}

theorem agrees_raise (f : Fault) (t : State) : AgreesOrRefuses b s (raise f t) (raise f (t.withBound b)) := .inr ⟨_, rfl, rfl⟩

theorem agrees_refuse (r : RefusalReason) (t : State) : AgreesOrRefuses b s (refuse r t) (refuse r (t.withBound b)) :=
  .inr ⟨_, rfl, rfl⟩

theorem agrees_ite {c : Prop} [Decidable c] {r r' rb rb' : Result} (h : AgreesOrRefuses b s r rb) (h' : AgreesOrRefuses b s r' rb') :
    AgreesOrRefuses b s (if c then r else r') (if c then rb else rb') := by
  split
  · exact h
  · exact h'

theorem agrees_withDest {k kb : Int → Result} (hk : ∀ d, AgreesOrRefuses b s (k d) (kb d)) :
    AgreesOrRefuses b s (withDest s dest k) (withDest (s.withBound b) dest kb) := by
  rcases hd : resolve s dest with _ | d
  · rw [withDest_none k hd, withDest_none (s := s.withBound b) kb hd]
    exact agrees_raise _ s
  · rw [withDest_eq k hd, withDest_eq (s := s.withBound b) kb hd]
    exact hk d

theorem agrees_withOperands {k kb : Int → Int → Result} (hk : ∀ d v, AgreesOrRefuses b s (k d v) (kb d v)) :
    AgreesOrRefuses b s (withOperands s dest src k) (withOperands (s.withBound b) dest src kb) :=
  agrees_withDest (fun d => agrees_withDest (hk d))

theorem agrees_pushThen {v : Int} {k kb : State → Result} (hk : ∀ u, AgreesOrRefuses b s (k u) (kb (u.withBound b))) :
    AgreesOrRefuses b s (pushThen s v k) (pushThen (s.withBound b) v kb) := by
  by_cases hf : s.esp < stackFloor s.cfg
  · rw [pushThen_overflow k hf, pushThen_overflow (s := s.withBound b) kb hf]
    exact agrees_raise _ s
  rcases hr : inRange s.cfg s.esp with _ | _
  · rw [pushThen_outOfRange k hf hr, pushThen_outOfRange (s := s.withBound b) kb hf hr]
    exact agrees_raise _ s
  · rw [pushThen_eq k (not_lt.1 hf) hr, pushThen_eq (s := s.withBound b) kb (not_lt.1 hf) hr]
    exact hk ((s.setCell s.esp.toNat v).setEsp (s.esp - 1))

theorem agrees_popThen {k kb : State → Int → Result} (hk : ∀ u v, AgreesOrRefuses b s (k u v) (kb (u.withBound b) v)) :
    AgreesOrRefuses b s (popThen s k) (popThen (s.withBound b) kb) := by
  by_cases hl : lastCell s.cfg < s.esp + 1
  · rw [popThen_empty k hl, popThen_empty (s := s.withBound b) kb hl]
    exact agrees_raise _ (s.setEsp (s.esp + 1))
  by_cases h0 : 0 ≤ s.esp + 1
  · rw [popThen_eq k h0 (not_lt.1 hl), popThen_eq (s := s.withBound b) kb h0 (not_lt.1 hl)]
    exact hk (s.setEsp (s.esp + 1)) _
  · rw [popThen_outOfRange k hl h0, popThen_outOfRange (s := s.withBound b) kb hl h0]
    exact agrees_raise _ (s.setEsp (s.esp + 1))

section Unbounded

variable (h : s.cfg.cellBound = none)
include h

/-- The unbounded core always completes; the bounded one completes with the same state or refuses. -/
theorem agrees_complete (t : State) (w : List Int) :
    AgreesOrRefuses b s (complete s t w) (complete (s.withBound b) (t.withBound b) w) := by
  rcases complete_cases (s.withBound b) (t.withBound b) w with ⟨e, -⟩ | ⟨e, -⟩
  · refine .inr ⟨t.countOp, ?_, e⟩
    exact complete_eq (fits_of_cellBound_none h _) (fun v _ => fits_of_cellBound_none h v)
  · exact .inl e

theorem agrees_completeAdvance (t : State) (len : Nat) (w : List Int) :
    AgreesOrRefuses b s (completeAdvance s t len w) (completeAdvance (s.withBound b) (t.withBound b) len w) :=
  agrees_complete h (t.advance len) w

theorem agrees_writeBackFrom (t : State) (dest : Operand) (len : Nat) (v : Int) (w : List Int) :
    AgreesOrRefuses b s (writeBackFrom s t dest len v w) (writeBackFrom (s.withBound b) (t.withBound b) dest len v w) := by
  rcases hr : inRange t.cfg dest.word.toNat with _ | _
  · rw [writeBackFrom_none hr, writeBackFrom_none (t := t.withBound b) hr]
    exact agrees_raise _ t
  · rw [writeBackFrom_eq hr, writeBackFrom_eq (t := t.withBound b) hr]
    exact agrees_completeAdvance h (t.setCell dest.word.toNat v) len (v :: w)

theorem agrees_writeBack (dest : Operand) (len : Nat) (v : Int) :
    AgreesOrRefuses b s (writeBack s dest len v) (writeBack (s.withBound b) dest len v) :=
  agrees_writeBackFrom h s dest len v []

theorem agrees_jumpIf {c : State → Bool} (hc : c (s.withBound b) = c s) :
    AgreesOrRefuses b s (jumpIf c dest s) (jumpIf c dest (s.withBound b)) := by
  refine agrees_withDest (fun d => ?_)
  rw [hc]
  exact agrees_ite (agrees_complete h (s.setIp d) []) (agrees_completeAdvance h s 2 [])

/-- Every instruction refuses or agrees. -/
theorem agrees_exec (i : Instr) : AgreesOrRefuses b s (exec i s) (exec i (s.withBound b)) := by
  cases i with
  | nop => exact agrees_completeAdvance h s 1 []
  | mov dest src | add dest src | sub dest src | mul dest src | and dest src | or dest src | xor dest src =>
    exact agrees_withOperands (fun _ _ => agrees_writeBack h dest 3 _)
  | div dest src =>
    exact agrees_withOperands (fun _ _ => agrees_ite (agrees_raise .divideByZero s) (agrees_writeBack h dest 3 _))
  | shl dest src | shr dest src =>
    exact agrees_withOperands (fun _ _ => agrees_ite (agrees_refuse .negativeShift s) (agrees_writeBack h dest 3 _))
  | cmp dest src => exact agrees_withOperands (fun d v => agrees_completeAdvance h (s.setCell 8 (cmpFlags d v)) 3 _)
  | mod dest src =>
    exact agrees_withOperands (fun d v =>
      agrees_ite (agrees_raise .divideByZero s) (agrees_completeAdvance h (s.setCell 7 (tmod d v)) 3 _))
  | jmp dest => exact agrees_withDest (fun d => agrees_complete h (s.setIp d) [])
  | je dest | jne dest | jl dest | jle dest | jg dest | jge dest => exact agrees_jumpIf h rfl
  | rem dest | inc dest | dec dest | not dest => exact agrees_withDest (fun _ => agrees_writeBack h dest 2 _)
  | push dest => exact agrees_withDest (fun d => agrees_pushThen (fun u => agrees_completeAdvance h u 2 [d, u.esp]))
  | pop dest => exact agrees_withDest (fun _ => agrees_popThen (fun u v => agrees_writeBackFrom h u dest 2 v [u.esp]))
  | call dest => exact agrees_withDest (fun d => agrees_pushThen (fun u => agrees_complete h (u.setIp d) [s.ip + 2, u.esp]))
  | ret =>
    rw [exec_ret, exec_ret]
    exact agrees_popThen (fun u v => agrees_complete h (u.setIp v) [u.esp])
  | prn dest => exact agrees_withDest (fun d => agrees_completeAdvance h (s.emit d) 2 [d])

end Unbounded

/-- Settles O27: `agrees_exec`, where no instruction changes the configuration. -/
theorem boundedCoreAgreesOrRefuses : Obligations.BoundedCoreAgreesOrRefuses := by
  intro i s b h
  refine (agrees_exec h i).imp_right ?_
  rintro ⟨t, he, heb⟩
  have ht : t.withBound b = { t with cfg := (s.withBound b).cfg } := by
    rw [State.withBound, (exec_image_cfg he).2]
    rfl
  exact ⟨t, he, heb.trans (congrArg _ ht)⟩

end Sys2Proof.Machine

/-! SUPPORT. The stack as a stack (46_stack.md R221, 47_call_ret.md): a pop after a push, a return after a call, and pushes in a row. -/
namespace Sys2Proof.Machine

variable {s t : State} {o dest : Operand} {d : Int}

/-- An operand inside the machine image has a value, addressed or direct. -/
theorem exists_resolve (h : (dest.word.toNat : Int) ≤ lastCell s.cfg) : ∃ d, resolve s dest = some d := by
  rcases resolve_cases s dest with ⟨-, hd⟩ | ⟨-, -, hd⟩ | ⟨-, hr, -⟩
  · exact ⟨_, hd⟩
  · exact ⟨_, hd⟩
  · exact absurd (last_lt_of_inRange_word hr) (not_lt.2 h)

section Unbounded

variable (hlegal : s.cfg.Legal) (hb : s.cfg.cellBound = none)
include hlegal hb

/-- A `push` in the unbounded core, above the floor. -/
theorem retires_push (hf : stackFloor s.cfg ≤ s.esp) (hl : s.esp ≤ lastCell s.cfg) (hd : resolve s o = some d) :
    Retires (.push o) s (s.ip + 2) (cellsWith s s.esp.toNat d) (s.esp - 1) s.output :=
  (pushStoresAndDecrements s o d hlegal hd).2 hf hl (fits_of_cellBound_none hb _) (fits_of_cellBound_none hb _)
    (fits_of_cellBound_none hb _)

/-- A `call` in the unbounded core, above the floor. -/
theorem retires_call (hf : stackFloor s.cfg ≤ s.esp) (hl : s.esp ≤ lastCell s.cfg) (hd : resolve s o = some d) :
    Retires (.call o) s d (cellsWith s s.esp.toNat (s.ip + 2)) (s.esp - 1) s.output :=
  (callPushesReturnAddress s o d hlegal hd).2 hf hl (fits_of_cellBound_none hb _) (fits_of_cellBound_none hb _)
    (fits_of_cellBound_none hb _)

end Unbounded

/-- A `pop` in the unbounded core whose top of stack, at `e`, holds `d`. -/
theorem retires_pop {e : Int} (hb : t.cfg.cellBound = none) (hesp : t.esp = e - 1) (h0 : 0 ≤ e) (hl : e ≤ lastCell t.cfg)
    (hdest : (dest.word.toNat : Int) ≤ lastCell t.cfg) (htop : t.cell e.toNat = d) :
    Retires (.pop dest) t (ipAfterWriteBack t dest 2 d) (cellsWith t dest.word.toNat d) e t.output := by
  obtain ⟨x, hx⟩ := exists_resolve hdest
  have hup : t.esp + 1 = e := by omega
  have hpop := (popLoadsAndIncrements t dest x hx).2
  rw [hup, htop] at hpop
  exact hpop h0 hl (fits_of_cellBound_none hb _) ⟨hdest, fits_of_cellBound_none hb _, fits_of_cellBound_none hb _⟩

/-- A `ret` in the unbounded core whose top of stack, at `e`, holds `d`. -/
theorem retires_ret {e : Int} (hb : t.cfg.cellBound = none) (hesp : t.esp = e - 1) (h0 : 0 ≤ e) (hl : e ≤ lastCell t.cfg)
    (htop : t.cell e.toNat = d) : Retires .ret t d t.cell e t.output := by
  have hup : t.esp + 1 = e := by omega
  have hret := (retPopsIntoIp t).2
  rw [hup, htop] at hret
  exact hret h0 hl (fits_of_cellBound_none hb _) (fits_of_cellBound_none hb _)

/-- Settles O49: the cell that `push` and `call` wrote is the one `pop` and `ret` read. -/
theorem stackReturnsWhatWasPushed : Obligations.StackReturnsWhatWasPushed := by
  intro s o dest d hlegal hb hf hl hd hdest
  have h9 := nine_le_esp hlegal hf
  have hne : s.esp.toNat ≠ 6 := by omega
  refine ⟨?push, ?call⟩
  case push =>
    obtain ⟨t, ht, hip, hcells, hesp, -, hops, -, hcfg, -⟩ := retires_push hlegal hb hf hl hd
    have htop : t.cell s.esp.toNat = d := by rw [hcells _ hne, cellsWith, if_pos rfl]
    obtain ⟨u, hu, huip, hucells, huesp, -, huops, -⟩ :=
      retires_pop (dest := dest) (hcfg ▸ hb) hesp (by omega) (hcfg ▸ hl) (hcfg ▸ hdest) htop
    refine ⟨t, u, ht, hu, huesp, by omega, fun h6 => ⟨?_, ?_⟩, fun h6 => ?_⟩
    · rw [hucells _ h6, cellsWith, if_pos rfl]
    · rw [huip, ipAfterWriteBack, if_neg h6, hip]
      push_cast
      omega
    · rw [huip, ipAfterWriteBack, if_pos h6]
      rfl
  case call =>
    obtain ⟨t, ht, hip, hcells, hesp, -, hops, -, hcfg, -⟩ := retires_call hlegal hb hf hl hd
    have htop : t.cell s.esp.toNat = s.ip + 2 := by rw [hcells _ hne, cellsWith, if_pos rfl]
    obtain ⟨u, hu, huip, -, huesp, -, huops, -⟩ := retires_ret (hcfg ▸ hb) hesp (by omega) (hcfg ▸ hl) htop
    exact ⟨t, u, ht, hip, hu, huip, huesp, by omega⟩

/-! ## Pushes in a row -/

theorem execTimes_succ {i : Instr} (he : exec i s = .next t) (hs : t.status = s.status) (n : Nat) :
    execTimes i (n + 1) s = execTimes i n t := by
  simp [execTimes, he, hs]

/-- The stack has room for `k` more pushes as long as the depth stays within STACK_SIZE + 1. -/
theorem execTimes_push {w : Word} (k : Nat) (hlegal : s.cfg.Legal) (hb : s.cfg.cellBound = none) (h0 : 0 ≤ s.depth)
    (hk : s.depth + k ≤ s.cfg.stackSize + 1) :
    ∃ t, execTimes (.push ⟨false, w⟩) k s = some t ∧ t.depth = s.depth + k ∧ t.cfg = s.cfg := by
  induction k generalizing s with
  | zero => exact ⟨s, rfl, by simp, rfl⟩
  | succ k ih =>
    have hf : stackFloor s.cfg ≤ s.esp := by
      simp only [State.depth] at hk
      simp only [stackFloor]
      omega
    have hl : s.esp ≤ lastCell s.cfg := by
      simp only [State.depth] at h0
      omega
    obtain ⟨t, ht, -, -, hesp, -, -, hstatus, hcfg, -⟩ := retires_push hlegal hb hf hl (resolve_direct (o := ⟨false, w⟩) rfl)
    have hdepth : t.depth = s.depth + 1 := by
      rw [exec_depth ht, hesp]
      omega
    obtain ⟨u, hu, hudepth, hucfg⟩ := ih (hcfg ▸ hlegal) (hcfg ▸ hb) (by omega) (by rw [hcfg]; omega)
    exact ⟨u, (execTimes_succ ht hstatus k).trans hu, by omega, hucfg.trans hcfg⟩

/-- Settles O50: the pushes by `execTimes_push`; after STACK_SIZE + 1 of them `esp` is below the floor. -/
theorem stackHoldsStackSizePlusOne : Obligations.StackHoldsStackSizePlusOne := by
  refine fun s w hlegal hb h0 => ⟨fun k hk => ?_, fun t ht => ?_⟩
  · obtain ⟨t, ht, hdepth, -⟩ := execTimes_push (w := w) k hlegal hb h0.ge (by omega)
    exact ⟨t, ht, by omega⟩
  · obtain ⟨t', ht', hdepth, hcfg⟩ := execTimes_push (w := w) (s.cfg.stackSize + 1) hlegal hb h0.ge (by omega)
    obtain rfl : t' = t := Option.some.inj (ht'.symm.trans ht)
    have hfloor : t'.esp < stackFloor t'.cfg := by
      simp only [State.depth] at hdepth h0
      simp only [stackFloor, hcfg] at hdepth ⊢
      omega
    exact exec_push_overflow (resolve_direct (o := ⟨false, w⟩) rfl) hfloor

end Sys2Proof.Machine

/-! SUPPORT. The run without a bound (60_exceptions.md R265, R267): it is the same from every state the bounded run passes. -/
namespace Sys2Proof.Machine

variable {s t u : State}

/-- A run goes on from wherever the host stopped. -/
theorem run_runFor_iff (n : Nat) : Run s t ↔ Run (runFor n s) t := by
  constructor
  · rintro ⟨m, hm, ht⟩
    refine ⟨m, ?_, ht⟩
    rw [← runFor_add, Nat.add_comm, runFor_add, hm, runFor_stopped ht]
  · rintro ⟨m, hm, ht⟩
    exact ⟨n + m, (runFor_add n m s).trans hm, ht⟩

/-- A run returns at most one state. -/
theorem Run.unique (ht : Run s t) (hu : Run s u) : u = t := by
  obtain ⟨m, rfl, ht⟩ := ht
  obtain ⟨n, rfl, hu⟩ := hu
  rw [← runFor_stopped hu m, ← runFor_stopped ht n, ← runFor_add, ← runFor_add, Nat.add_comm]

/-- A run goes on forever exactly when it returns nothing. -/
theorem runsForever_iff : RunsForever s ↔ ∀ t, ¬ Run s t := by
  constructor
  · rintro h t ⟨n, rfl, ht⟩
    exact ht (h n)
  · intro h n
    by_contra hn
    exact h _ ⟨n, rfl, hn⟩

/-- Settles O56: every clause from `run_runFor_iff`, with the first step as a bounded run of one. -/
theorem runStepsUntilNotRunning : Obligations.RunStepsUntilNotRunning := by
  refine ⟨fun s t hs => ⟨?_, ?_⟩, fun s hs => ?_, fun s t ht => ⟨?_, fun u hu => ht.unique hu⟩, fun s => runsForever_iff,
    fun s t n => run_runFor_iff n⟩
  · rintro ⟨n, rfl, -⟩
    exact runFor_stopped hs n
  · rintro rfl
    exact ⟨0, rfl, hs⟩
  · obtain ⟨u, hu⟩ := step_running hs
    have hrun (t : State) : Run s t ↔ Run u t := (run_runFor_iff 1).trans (by rw [runFor_succ hs hu, runFor_zero])
    exact ⟨u, hu, hrun, by simp only [runsForever_iff, hrun]⟩
  · obtain ⟨n, -, hstop⟩ := ht
    exact hstop

end Sys2Proof.Machine

/-! SUPPORT. Reset and construction (10_state.md R21, R42, 20_memory.md R53, 70_reset_and_hazards.md R280). -/
namespace Sys2Proof.Machine

variable {s : State} {c : Config} {bytes : List Byte} {p : List Word}

/-- Settles O1: every field of the state after reset, evaluated. -/
theorem resetState : Obligations.ResetState :=
  ⟨fun _ => rfl, rfl, rfl, rfl, rfl, rfl, rfl, rfl, rfl, rfl, rfl⟩

/-- A buffer of a multiple of four bytes is read as words. -/
theorem exists_wordsOfBytes (h : bytes.length % 4 = 0) : ∃ p, wordsOfBytes bytes = some p := by
  induction bytes using wordsOfBytes.induct with
  | case1 => exact ⟨[], rfl⟩
  | case2 b0 b1 b2 b3 rest ih =>
    have hrest : rest.length % 4 = 0 := by
      simp only [List.length_cons] at h
      omega
    obtain ⟨p, hp⟩ := ih hrest
    exact ⟨_, by rw [wordsOfBytes_fourBytes, hp]; rfl⟩
  | case3 bytes hne hshort =>
    rcases bytes with _ | ⟨b0, _ | ⟨b1, _ | ⟨b2, _ | ⟨b3, rest⟩⟩⟩⟩
    · exact absurd rfl hne
    · simp at h
    · simp at h
    · simp at h
    · exact absurd rfl (hshort b0 b1 b2 b3 rest)

/-- Only such a buffer is. -/
theorem length_of_wordsOfBytes (h : wordsOfBytes bytes = some p) : bytes.length = 4 * p.length := by
  rw [eq_bytesOfWords_of_wordsOfBytes h, bytesOfWords_length]

theorem construct_illegal (h : ¬ c.Legal) : construct bytes c = .error .illegalConfig := if_neg h

theorem construct_ragged (h : c.Legal) (hp : wordsOfBytes bytes = none) : construct bytes c = .error .raggedImage := by
  rw [construct, if_pos h, hp]

theorem construct_ok (h : c.Legal) (hp : wordsOfBytes bytes = some p) : construct bytes c = .ok (State.initial c p) := by
  rw [construct, if_pos h, hp]

/-- What is constructed is the initial state of a legal configuration. -/
theorem eq_initial_of_construct (h : construct bytes c = .ok s) : c.Legal ∧ ∃ p, s = State.initial c p := by
  by_cases hc : c.Legal
  · rcases hp : wordsOfBytes bytes with _ | p
    · cases (construct_ragged hc hp).symm.trans h
    · exact ⟨hc, p, (Except.ok.inj ((construct_ok hc hp).symm.trans h)).symm⟩
  · cases (construct_illegal hc).symm.trans h

/-- The initial state of a legal configuration has an empty machine image and an empty stack. -/
theorem initial_inv (h : c.Legal) (p : List Word) : (State.initial c p).Inv := by
  refine ⟨h, State.initial_wf c p, by simp [State.initial], espInRange_of_ne (by simp [State.initial]) ?_⟩
  simp only [State.initial, stackFloor, lastCell]
  omega

/-- Settles O3: both are initial states of legal configurations. -/
theorem constructedCoreHasInvariant : Obligations.ConstructedCoreHasInvariant := by
  refine ⟨initial_inv (by decide) [], fun bytes c s h => ?_⟩
  obtain ⟨hc, p, rfl⟩ := eq_initial_of_construct h
  exact initial_inv hc p

/-! ## The step of a core that decodes or does not -/

/-- A running core past the end of its image halts. -/
theorem step_past_image (hs : s.status = .running) (h : (s.image.length : Int) ≤ s.ip) : step s = .next (s.setStatus .halted) := by
  simp [step, hs, cycle, h]

/-- A running core at a negative `ip` takes the fault OutOfRange. -/
theorem step_negative_ip (hs : s.status = .running) (h : s.ip < 0) : step s = raise .outOfRange s := by
  have hin : ¬ (s.image.length : Int) ≤ s.ip := by omega
  simp [step, hs, cycle, hin, h]

/-- A running core runs the instruction it fetched. -/
theorem step_of_fetch_ok {i : Instr} (hs : s.status = .running) (h0 : 0 ≤ s.ip) (hlt : s.ip < s.image.length) (hf : fetch s = .ok i) :
    step s = exec i s := by
  simp [step, hs, cycle, not_le.2 hlt, not_lt.2 h0, hf]

/-- Settles O10: what is decoded at `ip` is what is fetched. -/
theorem stepRunsTheDecodedInstruction : Obligations.StepRunsTheDecodedInstruction :=
  fun _ _ hs h0 hlt hf => step_of_fetch_ok hs h0 hlt hf

/-- Settles O11: the two tests before the fetch. -/
theorem fetchOutsideTheImage : Obligations.FetchOutsideTheImage :=
  fun _ hs => ⟨step_past_image hs, step_negative_ip hs⟩

/-- Settles O13: fewer words follow than the mnemonic takes, so the decoder answers `truncated`. -/
theorem truncatedInstructionIsInvalidProgram : Obligations.TruncatedInstructionIsInvalidProgram := by
  intro s w m hs h0 hw hm hend
  have hlen : (s.image.drop (s.ip.toNat + 1)).length < m.arity := by
    have hlt := ip_lt_of_image_getElem? h0 hw
    rw [List.length_drop]
    omega
  exact step_of_fetch_error hs h0 (ip_lt_of_image_getElem? h0 hw) ((fetch_eq hw).trans (decode_truncated hm hlen))

/-- Settles O14: the answer of `stopped` for each status. -/
theorem stoppedCoreTakesNoStep : Obligations.StoppedCoreTakesNoStep :=
  fun s => ⟨fun h => by simp [step, h, stopped], fun f h => by simp [step, h, stopped], fun r h => by simp [step, h, stopped]⟩

/-- Settles O2: the length decides whether the buffer is read; the words are those of R52's formula, and an empty image is left at once. -/
theorem constructLoadsLittleEndianWords : Obligations.ConstructLoadsLittleEndianWords := by
  refine fun bytes c => ⟨construct_illegal, fun hc hlen => ?_, fun hc hlen => ?_⟩
  · rcases hp : wordsOfBytes bytes with _ | p
    · exact construct_ragged hc hp
    · have := length_of_wordsOfBytes hp
      omega
  · obtain ⟨p, hp⟩ := exists_wordsOfBytes hlen
    obtain ⟨hbytes, hwords⟩ := imageBytesRoundTrip.2 bytes p hp
    have hlength : p.length = bytes.length / 4 := by omega
    refine ⟨State.initial c p, construct_ok hc hp, rfl, hlength, fun i hi => hwords i (hlength ▸ hi), fun _ => rfl, rfl, rfl, rfl, rfl,
      fun hempty => ?_⟩
    subst hempty
    cases hp
    exact step_past_image rfl le_rfl

end Sys2Proof.Machine

/-! SUPPORT. The layout of the opcode word (30_encoding.md R70, R71) and the words of the worked examples (95_test_vectors.md). -/
namespace Sys2Proof

/-- The opcode word has no bit above bit 11. -/
theorem opcodeWord_toNat_lt (op : BitVec 8) (d s : Option Bool) : (opcodeWord op d s).toNat < 2 ^ 12 := by
  revert op; rcases d with _ | _ | _ <;> rcases s with _ | _ | _ <;> decide

/-- Bits 31..12 of an opcode word are 0 (92_eei_decisions.md D19). -/
theorem opcodeWord_high (op : BitVec 8) (d s : Option Bool) {k : Nat} (hk : 12 ≤ k) : (opcodeWord op d s).getLsbD k = false :=
  Nat.testBit_lt_two_pow ((opcodeWord_toNat_lt op d s).trans_le (Nat.pow_le_pow_right (by decide) hk))

/-- The bit that says an operand is there and addressed. -/
theorem addressedBit_eq (x : Option Operand) : (x.map (·.addressed) == some true) = (x.map (·.addressed)).getD false := by
  rcases x with _ | ⟨_ | _, w⟩ <;> rfl

/-- The bit that says an operand is there and direct. -/
theorem directBit_eq (x : Option Operand) : (x.map (·.addressed) == some false) = (x.map (fun d => !d.addressed)).getD false := by
  rcases x with _ | ⟨_ | _, w⟩ <;> rfl

/-- Settles O7: each field of `opcodeWord` in turn. -/
theorem opcodeWordLayout : Obligations.OpcodeWordLayout := by
  refine fun o i => ⟨fun k hk => ?_, ?_, ?_, ?_, ?_, fun k hk => opcodeWord_high _ _ _ hk⟩
  · rw [← opField_getLsbD hk, Instr.opcode, opField_opcodeWord]
  · exact (srcAddressed_opcodeWord _ _ _).trans (addressedBit_eq i.src?)
  · exact (srcDirect_opcodeWord _ _ _).trans (directBit_eq i.src?)
  · exact (destAddressed_opcodeWord _ _ _).trans (addressedBit_eq i.dest?)
  · exact (destDirect_opcodeWord _ _ _).trans (directBit_eq i.dest?)

/-- Settles O8: the eight words, decoded. -/
theorem specWordsDecode : Obligations.SpecWordsDecode := by
  unfold Obligations.SpecWordsDecode
  decide

end Sys2Proof

/-! SUPPORT. The linker engine's first pass (30_encoding.md R110 to R117, 60_exceptions.md R256): which nodes it accepts and what it
reports of the first one it does not. -/
namespace Sys2Proof.Machine

variable {o : OpcMap} {m : Mnemonic} {n : Node} {nodes pre post : List Node} {st : LinkState} {op : NodeOperand}
  {ops : List NodeOperand} {name : String} {w : Word} {c : Nat} {v : Int}

/-! ## Names and values -/

/-- A name spells at most one mnemonic. -/
theorem mnemonicOfName_eq_some_iff : mnemonicOfName name = some m ↔ mnemonicName m = name :=
  ⟨mnemonicName_of_mnemonicOfName, fun h => h ▸ find?_of_nodup_map mnemonicName (by decide) m.mem_all⟩

theorem mnemonicOfName_eq_none_iff : mnemonicOfName name = none ↔ ∀ m, mnemonicName m ≠ name := by
  simp [mnemonicOfName, Mnemonic.mem_all]

/-- A register's cell is its place in the list of names. -/
theorem registerCell_eq_some_iff : registerCell name = some c ↔ (name, c) ∈ registerNames.zipIdx := by
  have hnodup : registerNames.Nodup := by decide
  rw [registerCell, List.idxOf?_eq_some_iff, List.mem_zipIdx_iff_getElem?, List.getElem?_eq_some_iff]
  refine exists_congr (fun hc => and_iff_left_of_imp (fun hname j hj hsame => ?_))
  exact absurd (hnodup.getElem_inj_iff.1 (hsame.trans hname.symm)) hj.ne

theorem registerCell_isSome_iff : (registerCell name).isSome = true ↔ name ∈ registerNames := List.isSome_idxOf?

/-- Every register cell fits a word. -/
theorem registerCell_lt (h : registerCell name = some c) : c < 2 ^ 32 := by
  have hlt := (List.getElem?_eq_some_iff.1 (List.mem_zipIdx_iff_getElem?.1 (registerCell_eq_some_iff.1 h))).1
  exact lt_trans hlt (by decide)

theorem literalWord_isSome_iff : (literalWord v).isSome = true ↔ 0 ≤ v ∧ v < 2 ^ 32 := by
  rw [literalWord]
  split
  case isTrue hv => exact iff_of_true rfl hv
  case isFalse hv => exact iff_of_false Bool.false_ne_true hv

/-- The word of a value is that value. -/
theorem toNat_of_literalWord (h : literalWord v = some w) : (w.toNat : Int) = v := by
  rw [literalWord] at h
  split at h
  case isTrue hv =>
    cases h
    rw [BitVec.toNat_ofNat]
    omega
  case isFalse => cases h

/-- The word of a register is its cell. -/
theorem toNat_of_register_word (h : (NodeOperand.register name).word = some w) : registerCell name = some w.toNat := by
  obtain ⟨c, hc, rfl⟩ := Option.map_eq_some_iff.1 h
  rw [hc, BitVec.toNat_ofNat, Nat.mod_eq_of_lt (registerCell_lt hc)]

/-! ## The input contract -/

/-- The name of a Register operand is none of the six. -/
theorem nameOk_eq_false_iff : op.nameOk = false ↔ ∃ name, op = .register name ∧ name ∉ registerNames := by
  cases op with
  | register name => rw [NodeOperand.nameOk, ← Bool.not_eq_true, registerCell_isSome_iff]; simp
  | memoryOffset | literal | labelRef => simp [NodeOperand.nameOk]

/-- A Literal or a LabelReference is direct. -/
theorem isAddressed_eq_false_iff : op.isAddressed = false ↔ (∃ v, op = .literal v) ∨ ∃ l, op = .labelRef l := by
  cases op <;> simp [NodeOperand.isAddressed]

/-- The contract is broken in one of three ways (30_encoding.md R116). -/
theorem contractOk_eq_false_iff : contractOk m ops = false ↔ BreaksContract m ops := by
  have hhead : (ops.head?.map (·.isAddressed)).getD true = false ↔
      (∃ v, ops[0]? = some (.literal v)) ∨ ∃ l, ops[0]? = some (.labelRef l) := by
    cases ops with
    | nil => simp
    | cons op ops => simpa using isAddressed_eq_false_iff
  have hnames : ops.all (·.nameOk) = false ↔ ∃ name, .register name ∈ ops ∧ name ∉ registerNames := by
    simp only [List.all_eq_false, Bool.not_eq_true, nameOk_eq_false_iff]
    exact ⟨fun ⟨_, hop, name, h, hname⟩ => ⟨name, h ▸ hop, hname⟩,
      fun ⟨name, hop, hname⟩ => ⟨_, hop, name, rfl, hname⟩⟩
  rw [contractOk, BreaksContract, Bool.and_eq_false_iff, Bool.and_eq_false_iff, Bool.or_eq_false_iff, hhead, hnames,
    beq_eq_false_iff_ne, Bool.not_eq_false', or_assoc]
  rfl

theorem contractOk_iff : contractOk m ops = true ↔ ¬ BreaksContract m ops := by
  rw [← contractOk_eq_false_iff, Bool.not_eq_false]

/-! ## Operand values -/

/-- Every operand has a word exactly when all words are there. -/
theorem operandWords_isSome_iff : (operandWords ops).isSome = true ↔ ∀ op ∈ ops, op.word.isSome = true := by
  induction ops with
  | nil => simp [operandWords]
  | cons op ops ih =>
    rw [List.forall_mem_cons, ← ih, operandWords]
    rcases op.word with _ | w
    · simp
    · simp

/-- Every operand with a known name has a word, if its value fits one (30_encoding.md R82). -/
theorem word_isSome_iff (h : op.nameOk = true) :
    op.word.isSome = true ↔ ∀ v, op = .literal v ∨ op = .memoryOffset v → 0 ≤ v ∧ v < 2 ^ 32 := by
  cases op with
  | register name => simpa [NodeOperand.word, NodeOperand.nameOk] using h
  | memoryOffset n => simp [NodeOperand.word, literalWord_isSome_iff]
  | literal n => simp [NodeOperand.word, literalWord_isSome_iff]
  | labelRef l => simp [NodeOperand.word]

/-- The values of operands that keep the contract all fit exactly when the operands have words. -/
theorem operandWords_isSome_iff_values (h : contractOk m ops = true) : (operandWords ops).isSome = true ↔
    ∀ v, .literal v ∈ ops ∨ .memoryOffset v ∈ ops → 0 ≤ v ∧ v < 2 ^ 32 := by
  have hnames : ∀ op ∈ ops, op.nameOk = true := List.all_eq_true.1 (Bool.and_eq_true_iff.1 h).2
  rw [operandWords_isSome_iff]
  constructor
  · rintro hw v (hv | hv)
    · exact (word_isSome_iff (hnames _ hv)).1 (hw _ hv) v (.inl rfl)
    · exact (word_isSome_iff (hnames _ hv)).1 (hw _ hv) v (.inr rfl)
  · intro hvalues op hop
    rw [word_isSome_iff (hnames op hop)]
    rintro v (rfl | rfl)
    · exact hvalues v (.inl hop)
    · exact hvalues v (.inr hop)

/-! ## The nodes accepted and the first one that is not -/

theorem accepted_iff : n.Accepted ↔ ∃ m, mnemonicName m = n.mnemonic ∧ ¬ BreaksContract m n.operands ∧
    ∀ v, .literal v ∈ n.operands ∨ .memoryOffset v ∈ n.operands → 0 ≤ v ∧ v < 2 ^ 32 := by
  refine exists_congr (fun m => and_congr mnemonicOfName_eq_some_iff ?_)
  rw [← contractOk_iff]
  exact and_congr_right operandWords_isSome_iff_values

/-- The first pass goes past exactly the accepted nodes. -/
theorem exists_linkNode_iff : (∃ st', linkNode o st n = .ok st') ↔ n.Accepted := by
  simp only [linkNode_eq_ok_iff, Node.Accepted, Option.isSome_iff_exists]
  exact ⟨fun ⟨_, m, ws, hm, hc, hws, _⟩ => ⟨m, hm, hc, ws, hws⟩,
    fun ⟨m, hm, hc, ws, hws⟩ => ⟨_, m, ws, hm, hc, hws, rfl⟩⟩

theorem exists_firstPass_iff : (∃ st', firstPass o st nodes = .ok st') ↔ ∀ n ∈ nodes, n.Accepted := by
  induction nodes generalizing st with
  | nil => simp [firstPass]
  | cons n nodes ih =>
    simp only [firstPass_cons_eq_ok_iff, List.forall_mem_cons]
    constructor
    · rintro ⟨st', st₁, hn, hrest⟩
      exact ⟨exists_linkNode_iff.1 ⟨st₁, hn⟩, ih.1 ⟨st', hrest⟩⟩
    · rintro ⟨hn, hrest⟩
      obtain ⟨st₁, hn⟩ := exists_linkNode_iff.2 hn
      obtain ⟨st', hrest⟩ := ih.2 hrest
      exact ⟨st', st₁, hn, hrest⟩

/-- After accepted nodes the error of the next node is the error of the pass. -/
theorem firstPass_error {e : LinkError} (hpre : ∀ p ∈ pre, p.Accepted) (hn : ∀ st, linkNode o st n = .error e) :
    firstPass o st (pre ++ n :: post) = .error e := by
  induction pre generalizing st with
  | nil => rw [List.nil_append, firstPass, hn]
  | cons p pre ih =>
    obtain ⟨hp, hpre⟩ := List.forall_mem_cons.1 hpre
    obtain ⟨st₁, hst₁⟩ := exists_linkNode_iff.2 hp
    rw [List.cons_append, firstPass, hst₁]
    exact ih hpre

/-- The first node that is not accepted decides the error of the link. -/
theorem linkWords_error {e : LinkError} (hnodes : withStart nodes = pre ++ n :: post) (hpre : ∀ p ∈ pre, p.Accepted)
    (hn : ∀ st, linkNode o st n = .error e) : linkWords o nodes = .error e := by
  rw [linkWords, hnodes, firstPass_error hpre hn]

/-- Settles O54: the contract by `contractOk_eq_false_iff`, the accepted nodes by `accepted_iff`, the error by `linkWords_error`, where
the node is tested for its mnemonic, its contract and its values in this order. -/
theorem firstOffendingNodeIsReported : Obligations.FirstOffendingNodeIsReported := by
  refine ⟨fun m ops => contractOk_eq_false_iff, fun n => accepted_iff, fun o nodes pre post n hnodes hpre =>
    ⟨fun hunknown => ?_, fun m hm hbreaks => ?_, fun m hm hkeeps hvalue => ?_⟩⟩
  · refine linkWords_error hnodes hpre (fun st => ?_)
    rw [linkNode, mnemonicOfName_eq_none_iff.2 hunknown]
  · refine linkWords_error hnodes hpre (fun st => ?_)
    rw [linkNode, mnemonicOfName_eq_some_iff.2 hm]
    simp [contractOk_eq_false_iff.2 hbreaks]
  · have hcontract := contractOk_iff.2 hkeeps
    have hwords : operandWords n.operands = none := by
      rw [← Option.not_isSome_iff_eq_none, operandWords_isSome_iff_values hcontract]
      obtain ⟨v, hv, hmem⟩ := hvalue
      exact fun h => by have := h v hmem; omega
    refine linkWords_error hnodes hpre (fun st => ?_)
    rw [linkNode, mnemonicOfName_eq_some_iff.2 hm]
    simp [hcontract, hwords]

end Sys2Proof.Machine

/-! SUPPORT. The linker engine's labels (30_encoding.md R111, R113, R117 to R120): what the first pass records of them, and the words the
second pass writes. -/
namespace Sys2Proof.Machine

variable {o : OpcMap} {n : Node} {nodes pre post : List Node} {st st' : LinkState} {op : NodeOperand} {ops : List NodeOperand}
  {l : String} {ls : List String} {ws : List Word} {k p off : Nat}

/-! ## The offset of a label -/

/-- The last of `nodes` that defines `l` comes right after `pre`. -/
def LastDefinition (nodes : List Node) (l : String) (pre : List Node) : Prop :=
  ∃ n post, nodes = pre ++ n :: post ∧ n.label = some l ∧ ¬ DefinesLabel post l

theorem not_definesLabel_nil : ¬ DefinesLabel [] l := by simp [DefinesLabel]

theorem definesLabel_cons : DefinesLabel (n :: nodes) l ↔ n.label = some l ∨ DefinesLabel nodes l := by
  simp [DefinesLabel]

theorem LastDefinition.cons (n : Node) (h : LastDefinition nodes l pre) : LastDefinition (n :: nodes) l (n :: pre) := by
  obtain ⟨d, post, rfl, hd, hpost⟩ := h
  exact ⟨d, post, rfl, hd, hpost⟩

/-- The definition found lies before the end. -/
theorem LastDefinition.wordCount_lt (h : LastDefinition nodes l pre) : wordCount pre < wordCount nodes := by
  obtain ⟨d, post, rfl, -, -⟩ := h
  rw [wordCount_append, wordCount_cons]
  omega

theorem LinkState.offset?_define (st : LinkState) (label : Option String) (l : String) :
    (st.define label).offset? l = if label = some l then some st.out.length else st.offset? l := by
  rcases label with _ | l'
  · rfl
  · rw [LinkState.define, LinkState.offset?, List.lookup_cons]
    by_cases h : l = l'
    · subst h
      simp
    · rw [beq_false_of_ne h, if_neg (by simpa using Ne.symm h)]
      rfl

/-- A node gives its label the offset it stands at, and leaves every other label. -/
theorem linkNode_offset? (h : linkNode o st n = .ok st') (l : String) :
    st'.offset? l = if n.label = some l then some st.out.length else st.offset? l := by
  obtain ⟨m, ws, -, -, -, rfl⟩ := linkNode_eq_ok_iff.1 h
  exact st.offset?_define n.label l

/-- After the first pass a label has the offset of its last definition, or the one it had before if it has none. -/
theorem firstPass_offset? (h : firstPass o st nodes = .ok st') (l : String) :
    (∃ pre, LastDefinition nodes l pre ∧ st'.offset? l = some (st.out.length + wordCount pre)) ∨
    (¬ DefinesLabel nodes l ∧ st'.offset? l = st.offset? l) := by
  induction nodes generalizing st with
  | nil => cases h; exact .inr ⟨not_definesLabel_nil, rfl⟩
  | cons n nodes ih =>
    obtain ⟨st₁, hn, hrest⟩ := firstPass_cons_eq_ok_iff.1 h
    rcases ih hrest with ⟨pre, hlast, hoff⟩ | ⟨hnone, hoff⟩
    · refine .inl ⟨n :: pre, hlast.cons n, ?_⟩
      rw [hoff, linkNode_out_length hn, wordCount_cons, Nat.add_assoc]
    · rw [linkNode_offset? hn] at hoff
      by_cases hl : n.label = some l
      · exact .inl ⟨[], ⟨n, nodes, rfl, hl, hnone⟩, by rw [hoff, if_pos hl]; rfl⟩
      · exact .inr ⟨by simp [definesLabel_cons, hl, hnone], by rw [hoff, if_neg hl]⟩

/-- The offset of a label is that of its last definition. -/
theorem offset?_eq_some (h : firstPass o LinkState.empty nodes = .ok st) (hoff : st.offset? l = some off) :
    ∃ pre, LastDefinition nodes l pre ∧ off = wordCount pre := by
  rcases firstPass_offset? h l with ⟨pre, hlast, hpre⟩ | ⟨-, hnone⟩
  · exact ⟨pre, hlast, by simpa [hoff, LinkState.empty] using hpre⟩
  · cases hoff.symm.trans hnone

/-- A label without an offset is defined nowhere. -/
theorem offset?_eq_none_iff (h : firstPass o LinkState.empty nodes = .ok st) : st.offset? l = none ↔ ¬ DefinesLabel nodes l := by
  rcases firstPass_offset? h l with ⟨pre, ⟨n, post, rfl, hn, -⟩, hpre⟩ | ⟨hnone, hoff⟩
  · simp only [hpre, reduceCtorEq, false_iff, not_not]
    exact ⟨n, by simp, hn⟩
  · exact ⟨fun _ => hnone, fun _ => hoff⟩

/-! ## The uses of labels -/

/-- The uses a node adds, both ways round. -/
theorem linkNode_pending_iff (h : linkNode o st n = .ok st') {use : String × Nat} : use ∈ st'.pending ↔
    use ∈ st.pending ∨ ∃ k, n.operands[k]? = some (.labelRef use.1) ∧ use.2 = st.out.length + 1 + k := by
  refine ⟨linkNode_pending h, ?_⟩
  obtain ⟨m, ws, -, hc, -, rfl⟩ := linkNode_eq_ok_iff.1 h
  rw [← LinkState.define_pending st n.label]
  simp only [LinkState.pending, LinkState.emit, List.mem_append, LinkState.define_out]
  rintro ((hu | hu) | ⟨k, hk, hp⟩)
  · exact .inl (.inl hu)
  · exact .inr (.inl hu)
  · have hlt : k < 2 := by
      have hk2 := (List.getElem?_eq_some_iff.1 hk).1
      have := m.arity_le_two
      rw [length_of_contractOk hc] at hk2
      omega
    have hmem : use ∈ pendingUse (st.out.length + 1 + k) n.operands[k]? := by
      rw [hk, ← hp]
      exact List.mem_singleton_self use
    interval_cases k
    · exact .inl (.inr hmem)
    · exact .inr (.inr hmem)

/-- The labels used are those the operands refer to. -/
theorem firstPass_uses_iff (h : firstPass o st nodes = .ok st') :
    (∃ p, (l, p) ∈ st'.pending) ↔ (∃ p, (l, p) ∈ st.pending) ∨ UsesLabel nodes l := by
  induction nodes generalizing st with
  | nil => cases h; simp [UsesLabel]
  | cons n nodes ih =>
    obtain ⟨st₁, hn, hrest⟩ := firstPass_cons_eq_ok_iff.1 h
    have hnode : (∃ p, (l, p) ∈ st₁.pending) ↔ (∃ p, (l, p) ∈ st.pending) ∨ .labelRef l ∈ n.operands := by
      simp only [linkNode_pending_iff hn, exists_or, List.mem_iff_getElem?]
      exact or_congr_right ⟨fun ⟨_, k, hk, _⟩ => ⟨k, hk⟩, fun ⟨k, hk⟩ => ⟨_, k, hk, rfl⟩⟩
    have hcons : UsesLabel (n :: nodes) l ↔ .labelRef l ∈ n.operands ∨ UsesLabel nodes l := by simp [UsesLabel]
    rw [ih hrest, hnode, hcons, or_assoc]

/-- From the start of a run, the labels used are those of the nodes. -/
theorem firstPass_empty_uses_iff (h : firstPass o LinkState.empty nodes = .ok st) :
    (∃ p, (l, p) ∈ st.pending) ↔ UsesLabel nodes l := by
  rw [firstPass_uses_iff h]
  exact or_iff_right (fun ⟨_, hp⟩ => absurd hp List.not_mem_nil)

/-- The word at `p` is there to be overwritten with the offset of `l`. -/
def LinkState.UsedFor (st : LinkState) (p : Nat) (l : String) : Prop :=
  p < st.out.length ∧ (l, p) ∈ st.pending ∧ ∀ use ∈ st.pending, use.2 = p → use.1 = l

/-- A node adds uses behind the words emitted before it, so a use stays the only one of its word. -/
theorem linkNode_usedFor (h : linkNode o st n = .ok st') (hst : st.UsedFor p l) : st'.UsedFor p l := by
  obtain ⟨hp, hmem, hsame⟩ := hst
  refine ⟨by rw [linkNode_out_length h]; omega, (linkNode_pending_iff h).2 (.inl hmem), fun use hu hup => ?_⟩
  rcases linkNode_pending h hu with hu | ⟨k, -, hk⟩
  · exact hsame use hu hup
  · omega

/-! ## The operand words of the first pass -/

/-- The words of the operands stand in their order. -/
theorem operandWords_getElem? (h : operandWords ops = some ws) (hop : ops[k]? = some op) : ∃ w, op.word = some w ∧ ws[k]? = some w := by
  induction ops generalizing ws k with
  | nil => cases hop
  | cons op₀ ops ih =>
    obtain ⟨w, hw, h⟩ := Option.bind_eq_some_iff.1 h
    obtain ⟨rest, hrest, rfl⟩ := Option.map_eq_some_iff.1 h
    cases k with
    | zero => cases hop; exact ⟨w, hw, rfl⟩
    | succ k =>
      obtain ⟨w', hw', hat⟩ := ih hrest hop
      exact ⟨w', hw', hat⟩

/-- Where an accepted node uses `l`, its word waits for the offset of `l` alone. -/
theorem linkNode_label_usedFor (h : linkNode o st n = .ok st') (hst : st.UsesInside) (hop : n.operands[k]? = some (.labelRef l)) :
    st'.UsedFor (st.out.length + 1 + k) l := by
  have hk := (List.getElem?_eq_some_iff.1 hop).1
  refine ⟨by rw [linkNode_out_length h]; omega, (linkNode_pending_iff h).2 (.inr ⟨k, hop, rfl⟩), fun use hu hup => ?_⟩
  rcases linkNode_pending h hu with hu | ⟨k', hk', hp⟩
  · have := hst use hu
    omega
  · obtain rfl : k' = k := by omega
    rw [hop] at hk'
    simpa using hk'.symm

/-- The word of any other operand of an accepted node is fixed. -/
theorem linkNode_value_fixed (h : linkNode o st n = .ok st') (hst : st.UsesInside) (hop : n.operands[k]? = some op)
    (hvalue : ∀ l, op ≠ .labelRef l) : ∃ w, op.word = some w ∧ st'.Fixed (st.out.length + 1 + k) w := by
  obtain ⟨m, ws, -, -, hws, rfl⟩ := linkNode_eq_ok_iff.1 h
  obtain ⟨w, hw, hat⟩ := operandWords_getElem? hws hop
  refine ⟨w, hw, ?_, fun use hu hup => ?_⟩
  · rw [LinkState.emit, LinkState.define_out, Nat.add_assoc, List.getElem?_append_right (Nat.le_add_right _ _),
      Nat.add_sub_cancel_left, Nat.add_comm 1 k, List.getElem?_cons_succ, hat]
  · rcases linkNode_pending h hu with hu | ⟨k', hk', hp⟩
    · have := hst use hu
      omega
    · obtain rfl : k' = k := by omega
      exact hvalue _ (Option.some.inj (hop.symm.trans hk'))

/-- What a node does to the words and uses of its own place holds after the first pass. -/
theorem firstPass_node {P : LinkState → Prop} (hP : ∀ {n st st'}, linkNode o st n = .ok st' → P st → P st')
    (hnode : ∀ {st st'}, linkNode o st n = .ok st' → st.UsesInside → st.out.length = wordCount pre → P st')
    (h : firstPass o LinkState.empty (pre ++ n :: post) = .ok st) : P st := by
  obtain ⟨st₁, hpre, h⟩ := firstPass_append_eq_ok_iff.1 h
  obtain ⟨st₂, hn, hpost⟩ := firstPass_cons_eq_ok_iff.1 h
  have hinside : st₁.UsesInside := firstPass_keeps linkNode_usesInside hpre (fun _ hu => absurd hu List.not_mem_nil)
  have hoffset : st₁.out.length = wordCount pre := by simpa [LinkState.empty] using firstPass_out_length hpre
  exact firstPass_keeps hP hpost (hnode hn hinside hoffset)

/-! ## The second pass -/

/-- The labels reported are the ones used without an offset. -/
theorem mem_undefinedLabels : l ∈ st.undefinedLabels ↔ (∃ p, (l, p) ∈ st.pending) ∧ st.offset? l = none := by
  simp [LinkState.undefinedLabels, List.mem_eraseDups]

/-- The label an error names is one of the undefined ones, whatever the free choice (30_encoding.md R119). -/
theorem reportedLabel_mem (l : String) (ls : List String) : reportedLabel l ls ∈ l :: ls := by
  cases ls with
  | nil => exact List.mem_cons_self
  | cons l' ls =>
    have hlt : Config.undefinedLabelChoice (l :: l' :: ls) % ((l' :: ls).length + 1) < (l :: l' :: ls).length :=
      Nat.mod_lt _ (Nat.succ_pos _)
    rw [reportedLabel, List.getD_eq_getElem _ _ hlt]
    · exact List.getElem_mem hlt
    · simp

/-- No label is undefined when every use has an offset. -/
theorem undefinedLabels_eq_nil_iff : st.undefinedLabels = [] ↔ ∀ use ∈ st.pending, ∃ off, st.offset? use.1 = some off := by
  simp only [List.eq_nil_iff_forall_not_mem, mem_undefinedLabels, not_and, ← Option.ne_none_iff_exists']
  exact ⟨fun h use hu => h use.1 ⟨use.2, hu⟩, fun h l ⟨p, hp⟩ => h (l, p) hp⟩

/-- The second pass stops at an undefined label. -/
theorem secondPass_of_undefined (h : st.undefinedLabels = l :: ls) :
    secondPass st = .error (.undefinedLabel (reportedLabel l ls)) := by
  rw [secondPass, h]

/-- Without one it asks only whether the offsets fit. -/
theorem secondPass_of_defined (h : st.undefinedLabels = []) : secondPass st =
    if offsetsFit st then .ok (st.pending.foldl (patch st) st.out) else .error .offsetOutOfRange := by
  rw [secondPass, h]

theorem offsetsFit_iff : offsetsFit st = true ↔ ∀ use ∈ st.pending, ∀ off, st.offset? use.1 = some off → off < 2 ^ 32 := by
  rw [offsetsFit, List.all_eq_true]
  refine forall₂_congr (fun use _ => ?_)
  rcases st.offset? use.1 with _ | off <;> simp

/-- The second pass succeeds when every used label has an offset that fits a word. -/
theorem exists_secondPass_iff : (∃ ws, secondPass st = .ok ws) ↔
    ∀ use ∈ st.pending, ∃ off, st.offset? use.1 = some off ∧ off < 2 ^ 32 := by
  rcases hlabels : st.undefinedLabels with _ | ⟨l, ls⟩
  · have hdefined := undefinedLabels_eq_nil_iff.1 hlabels
    have hfit : offsetsFit st = true ↔ ∀ use ∈ st.pending, ∃ off, st.offset? use.1 = some off ∧ off < 2 ^ 32 := by
      refine offsetsFit_iff.trans (forall₂_congr (fun use hu => ?_))
      obtain ⟨off, hoff⟩ := hdefined use hu
      simp [hoff]
    rw [secondPass_of_defined hlabels, ← hfit]
    split <;> simp [*]
  · refine iff_of_false (fun ⟨ws, h⟩ => ?_) (fun h => ?_)
    · cases (secondPass_of_undefined hlabels).symm.trans h
    · have hnil := undefinedLabels_eq_nil_iff.2 (fun use hu => (h use hu).imp (fun _ => And.left))
      cases hlabels.symm.trans hnil

/-- A label the second pass names is used and has no offset. -/
theorem mem_undefinedLabels_of_secondPass (h : secondPass st = .error (.undefinedLabel l)) : l ∈ st.undefinedLabels := by
  rcases hlabels : st.undefinedLabels with _ | ⟨l', ls⟩
  · rw [secondPass_of_defined hlabels] at h
    split at h <;> cases h
  · cases (secondPass_of_undefined hlabels).symm.trans h
    exact reportedLabel_mem l' ls

/-- Where all uses of a word are of `l`, the second pass leaves the offset of `l` there. -/
theorem foldl_patch_getElem?_eq {uses : List (String × Nat)} {out : List Word} (hoff : st.offset? l = some off) (hp : p < out.length)
    (hsame : ∀ use ∈ uses, use.2 = p → use.1 = l) (h : (l, p) ∈ uses ∨ out[p]? = some (BitVec.ofNat 32 off)) :
    (uses.foldl (patch st) out)[p]? = some (BitVec.ofNat 32 off) := by
  induction uses generalizing out with
  | nil => exact h.resolve_left List.not_mem_nil
  | cons use uses ih =>
    obtain ⟨huse, hrest⟩ := List.forall_mem_cons.1 hsame
    refine ih (by rwa [patch_length]) hrest ?_
    by_cases hup : use.2 = p
    · refine .inr ?_
      rw [patch, huse hup, hoff, hup]
      exact List.getElem?_set_self hp
    · rw [patch_getElem?_ne hup]
      refine h.imp_left (fun hmem => (List.mem_cons.1 hmem).resolve_left ?_)
      rintro rfl
      exact hup rfl

/-- After a successful second pass the word that waits for `l` is the offset of `l`. -/
theorem secondPass_usedFor (h : secondPass st = .ok ws) (hst : st.UsedFor p l) :
    ∃ off, st.offset? l = some off ∧ (ws[p]?).map (·.toNat) = some off := by
  obtain ⟨hp, hmem, hsame⟩ := hst
  obtain ⟨off, hoff, hfits⟩ := exists_secondPass_iff.1 ⟨ws, h⟩ _ hmem
  refine ⟨off, hoff, ?_⟩
  rw [secondPass_eq h, foldl_patch_getElem?_eq hoff hp hsame (.inl hmem), Option.map_some, BitVec.toNat_ofNat, Nat.mod_eq_of_lt hfits]

/-! ## The whole engine -/

/-- In the image of a successful link a label operand's word is the offset of the label's last definition. -/
theorem linkWords_label (h : linkWords o nodes = .ok ws) (hnodes : withStart nodes = pre ++ n :: post)
    (hop : n.operands[k]? = some (.labelRef l)) : ∃ pre', LastDefinition (withStart nodes) l pre' ∧
      (ws[wordCount pre + 1 + k]?).map (·.toNat) = some (wordCount pre') := by
  obtain ⟨st, hfirst, hsecond⟩ := linkWords_eq_ok_iff.1 h
  have hused : st.UsedFor (wordCount pre + 1 + k) l :=
    firstPass_node linkNode_usedFor (fun hn hin hat => hat ▸ linkNode_label_usedFor hn hin hop) (hnodes ▸ hfirst)
  obtain ⟨off, hoff, hw⟩ := secondPass_usedFor hsecond hused
  obtain ⟨pre', hlast, rfl⟩ := offset?_eq_some hfirst hoff
  exact ⟨pre', hlast, hw⟩

/-- Any other operand's word is the word of the operand. -/
theorem linkWords_value (h : linkWords o nodes = .ok ws) (hnodes : withStart nodes = pre ++ n :: post) (hop : n.operands[k]? = some op)
    (hvalue : ∀ l, op ≠ .labelRef l) : ∃ w, op.word = some w ∧ ws[wordCount pre + 1 + k]? = some w := by
  obtain ⟨st, hfirst, hsecond⟩ := linkWords_eq_ok_iff.1 h
  obtain ⟨w, hw, hfixed⟩ := firstPass_node (P := fun st => ∃ w, op.word = some w ∧ st.Fixed (wordCount pre + 1 + k) w)
    (fun hn ⟨w, hw, hfixed⟩ => ⟨w, hw, linkNode_fixed hn hfixed⟩)
    (fun hn hin hat => hat ▸ linkNode_value_fixed hn hin hop hvalue) (hnodes ▸ hfirst)
  exact ⟨w, hw, secondPass_fixed hsecond hfixed⟩

/-- Settles O52: the register names by `registerCell_eq_some_iff`, a label's word by `linkWords_label`, every other by
`linkWords_value`. -/
theorem linkedOperandWords : Obligations.LinkedOperandWords := by
  refine ⟨fun name c => registerCell_eq_some_iff, fun o nodes ws h pre n post k op hnodes hop => ⟨?label, ?value, ?register⟩⟩
  case label =>
    rintro l rfl
    obtain ⟨pre', ⟨n', post', hlast, hlabel, hnone⟩, hw⟩ := linkWords_label h hnodes hop
    exact ⟨pre', n', post', hlast, hlabel, hnone, hw⟩
  case value =>
    intro v hv
    obtain ⟨w, hw, hat⟩ := linkWords_value h hnodes hop (by rintro l rfl; simp at hv)
    have hliteral : literalWord v = some w := by rcases hv with rfl | rfl <;> exact hw
    rw [hat, Option.map_some, toNat_of_literalWord hliteral]
  case register =>
    rintro name rfl
    obtain ⟨w, hw, hat⟩ := linkWords_value h hnodes hop (by simp)
    rw [hat, Option.map_some, toNat_of_register_word hw]

/-- No node fails for an undefined label. -/
theorem linkNode_ne_undefinedLabel : linkNode o st n ≠ .error (.undefinedLabel l) := by
  rw [linkNode]
  rcases mnemonicOfName n.mnemonic with _ | m
  · simp
  by_cases hc : contractOk m n.operands = true
  · rcases operandWords n.operands with _ | ws <;> simp [hc]
  · simp [hc]

/-- The first pass names no undefined label. -/
theorem firstPass_ne_undefinedLabel : firstPass o st nodes ≠ .error (.undefinedLabel l) := by
  induction nodes generalizing st with
  | nil => simp [firstPass]
  | cons n nodes ih =>
    rw [firstPass]
    rcases hn : linkNode o st n with e | st₁
    · exact fun h => linkNode_ne_undefinedLabel (hn.trans h)
    · exact ih

/-- Where the first pass accepts every node, the link is the second pass. -/
theorem linkWords_of_accepted (h : ∀ n ∈ withStart nodes, n.Accepted) :
    ∃ st, firstPass o LinkState.empty (withStart nodes) = .ok st ∧ linkWords o nodes = secondPass st := by
  obtain ⟨st, hst⟩ := exists_firstPass_iff.2 h
  exact ⟨st, hst, by rw [linkWords, hst]⟩

/-- A link that names a label got past the first pass. -/
theorem secondPass_of_linkWords (h : linkWords o nodes = .error (.undefinedLabel l)) :
    ∃ st, firstPass o LinkState.empty (withStart nodes) = .ok st ∧ secondPass st = .error (.undefinedLabel l) := by
  rw [linkWords] at h
  rcases hfirst : firstPass o LinkState.empty (withStart nodes) with e | st
  · rw [hfirst] at h
    obtain rfl : e = .undefinedLabel l := Except.error.inj h
    exact absurd hfirst firstPass_ne_undefinedLabel
  · rw [hfirst] at h
    exact ⟨st, rfl, h⟩

/-- Settles O53: the labels the second pass finds undefined are those used and defined nowhere, by `firstPass_empty_uses_iff` and
`offset?_eq_none_iff`; an offset lies before the end of the image. -/
theorem undefinedLabelFailsTheLink : Obligations.UndefinedLabelFailsTheLink := by
  have hundefined {o : OpcMap} {ns : List Node} {st : LinkState} (hfirst : firstPass o LinkState.empty ns = .ok st) (l : String) :
      l ∈ st.undefinedLabels ↔ UsesLabel ns l ∧ ¬ DefinesLabel ns l := by
    rw [mem_undefinedLabels, firstPass_empty_uses_iff hfirst, offset?_eq_none_iff hfirst]
  refine fun o nodes => ⟨fun haccepted hlabel => ?fails, fun l h => ?names, fun haccepted hdefined hsize => ?succeeds⟩
  case fails =>
    obtain ⟨st, hfirst, hlink⟩ := linkWords_of_accepted (o := o) haccepted
    obtain ⟨l, hl⟩ := hlabel
    obtain ⟨l', ls, hlabels⟩ := List.exists_cons_of_ne_nil (List.ne_nil_of_mem ((hundefined hfirst l).2 hl))
    exact ⟨reportedLabel l' ls, hlink.trans (secondPass_of_undefined hlabels)⟩
  case names =>
    obtain ⟨st, hfirst, hsecond⟩ := secondPass_of_linkWords h
    exact ⟨exists_firstPass_iff.1 ⟨st, hfirst⟩, (hundefined hfirst l).1 (mem_undefinedLabels_of_secondPass hsecond)⟩
  case succeeds =>
    obtain ⟨st, hfirst, hlink⟩ := linkWords_of_accepted (o := o) haccepted
    have hfits : ∀ use ∈ st.pending, ∃ off, st.offset? use.1 = some off ∧ off < 2 ^ 32 := by
      intro use hu
      have hdef := hdefined use.1 ((firstPass_empty_uses_iff hfirst).1 ⟨use.2, hu⟩)
      rcases hoff : st.offset? use.1 with _ | off
      · exact absurd hdef ((offset?_eq_none_iff hfirst).1 hoff)
      · obtain ⟨pre, hlast, rfl⟩ := offset?_eq_some hfirst hoff
        exact ⟨_, rfl, hlast.wordCount_lt.trans_le hsize⟩
    obtain ⟨ws, hws⟩ := exists_secondPass_iff.2 hfits
    have hwords : linkWords o nodes = .ok ws := hlink.trans hws
    exact ⟨ws, hwords, by rw [link, hwords]; rfl⟩

/-! ## The implicit jump -/

/-- The node prepended where some node carries the label `start` (30_encoding.md R110). -/
def startJump : Node := ⟨none, "jmp", [.labelRef "start"]⟩

theorem any_start_iff : nodes.any (fun n => n.label == some "start") = true ↔ DefinesLabel nodes "start" := by
  simp [DefinesLabel]

theorem withStart_of_not_defines (h : ¬ DefinesLabel nodes "start") : withStart nodes = nodes :=
  if_neg (fun hany => h (any_start_iff.1 hany))

theorem withStart_of_defines (h : DefinesLabel nodes "start") : withStart nodes = startJump :: nodes :=
  if_pos (any_start_iff.2 h)

/-- The implicit jump defines no label, so a last definition lies behind it. -/
theorem LastDefinition.of_startJump (h : LastDefinition (startJump :: nodes) l pre) :
    ∃ pre', pre = startJump :: pre' ∧ LastDefinition nodes l pre' := by
  obtain ⟨n, post, hnodes, hn, hpost⟩ := h
  cases pre with
  | nil =>
    obtain ⟨rfl, -⟩ := List.cons.inj hnodes
    cases hn
  | cons p pre =>
    obtain ⟨rfl, htail⟩ := List.cons.inj hnodes
    exact ⟨pre, rfl, n, post, htail, hn, hpost⟩

/-- The opcode word of the implicit jump and a word after it decode to a jump to that word. -/
theorem decode_startJump (ho : o.Injective) (w : Word) (rest : List Word) :
    decode o (nodeOpcode o .jmp startJump :: w :: rest) = .ok (.jmp ⟨false, w⟩) := by
  have hm : lookupMnemonic o (opField (nodeOpcode o .jmp startJump)) = some .jmp := by
    rw [nodeOpcode, opField_opcodeWord, lookupMnemonic_of ho]
  have hdirect : destAddressed (nodeOpcode o .jmp startJump) = false := destAddressed_opcodeWord _ _ _
  rw [decode_known hm (by simp [Mnemonic.arity]), hdirect]
  rfl

/-- Settles O55: `withStart` by its test; the opcode word at word 0 by `linkWords_opcode`, the offset of `start` at word 1 by
`linkWords_label`. -/
theorem startLabelIsTheEntryPoint : Obligations.StartLabelIsTheEntryPoint := by
  refine ⟨fun nodes => withStart_of_not_defines, fun nodes => withStart_of_defines, fun o nodes ws ho h hstart => ?_⟩
  have hnodes : withStart nodes = [] ++ startJump :: nodes := withStart_of_defines hstart
  obtain ⟨m, hm, -, hopcode⟩ := linkWords_opcode h hnodes
  obtain rfl : m = .jmp := (Option.some.inj hm).symm
  obtain ⟨pre', hlast, htarget⟩ := linkWords_label (k := 0) h hnodes rfl
  rw [hnodes] at hlast
  obtain ⟨pre, rfl, n, post, hsplit, hn, hpost⟩ := hlast.of_startJump
  obtain ⟨w, hw, hoffset⟩ := Option.map_eq_some_iff.1 htarget
  rcases ws with _ | ⟨w0, _ | ⟨w1, rest⟩⟩
  · cases hw
  · cases hw
  · cases hopcode
    cases hw
    refine ⟨pre, n, post, w, hsplit, hn, hpost, decode_startJump ho w rest, ?_⟩
    rw [hoffset, wordCount_cons]
    rfl

end Sys2Proof.Machine
